-- ==== Sys2Proof/Word.lean ====
section
/-! DEFINITION. The byte, the unit of every space of the block (00_scope.md R10, 20_memory.md R50), and the sum of
bytes modulo 256 (41_packetizer.md R124: unsigned, only the low 8 bits are kept). -/

namespace Sys2Proof

/-- A byte: 8 bits, an unsigned integer 0 to 255 (R10). -/
abbrev Byte := BitVec 8

/-- The sum of the bytes, modulo 256 (R124). -/
def byteSum : List Byte → Byte
  | [] => 0
  | b :: l => b + byteSum l

end Sys2Proof
end

