-- ==== Sys2Proof/Config.lean ====
section
/-! DEFINITION. What is fixed for the life of the block: the protocol's constants (00_scope.md R5), the variant
parameters with the values the spec admits (R6, 92_eei_decisions.md D2, D3, D27), and the free values of the registers
that are unspecified while the block is idle (10_state.md R28). -/

namespace Sys2Proof

/-- MAX_MESSAGES: 6, or 5 in the other documented variant; no other value is admitted (R6, D27, U3, U9). -/
inductive Capacity where
  | six
  | five
deriving DecidableEq, Repr

/-- The variant parameters of R6. N_EFFECTS = 4 is not admitted (U9), so N_EFFECTS is 5 and no field. -/
structure Config where
  /-- MAX_MESSAGES -/
  capacity : Capacity
  /-- DELAY_AFTER_INIT -/
  delayAfterInit : Bool
  /-- TYPE_MARKER_PER_SLOT -/
  typeMarkerPerSlot : Bool
deriving DecidableEq, Repr

namespace Config

/-- The canonical variant (R6, D2, D3). -/
def canonical : Config := { capacity := .six, delayAfterInit := true, typeMarkerPerSlot := true }

/-- MAX_MESSAGES as a number (R6). -/
def maxMessages (c : Config) : Nat :=
  match c.capacity with
  | .six => 6
  | .five => 5

/-- BUF_SIZE: bytes in one message buffer (R5). -/
@[simp] abbrev bufSize : Nat := 256
/-- CHUNK_SIZE: payload bytes of a PKT frame (R5). -/
@[simp] abbrev chunkSize : Nat := 64
/-- HDR_SIZE: attribute bytes and length byte before the text (R5). -/
@[simp] abbrev hdrSize : Nat := 4
/-- TEXT_LIMIT: the text's length is strictly less (R5, C1). -/
@[simp] abbrev textLimit : Nat := 250
/-- PKT_SIZE (R5). -/
@[simp] abbrev pktSize : Nat := 69
/-- TERM_SIZE (R5). -/
@[simp] abbrev termSize : Nat := 3
/-- DEFAULT_DELAY_MS (R6, R35). -/
@[simp] abbrev defaultDelayMs : BitVec 16 := 200
/-- STX: byte 0 of PKT and TERM (R5). -/
@[simp] abbrev stx : Byte := 0x02
/-- PKT_MARK: byte 1 of PKT (R5). -/
@[simp] abbrev pktMark : Byte := 0x31
/-- TERM_MARK: byte 1 of TERM (R5). -/
@[simp] abbrev termMark : Byte := 0x33
/-- INIT_BYTE: the INIT frame (R5). -/
@[simp] abbrev initByte : Byte := 0x00
/-- TYPE_BASE: the type marker of the first message (R5). -/
@[simp] abbrev typeBase : Nat := 6

/-- Bytes of the message store, MAX_MESSAGES × 256 (20_memory.md R50). -/
def storeSize (c : Config) : Nat := bufSize * c.maxMessages

/-- MI while the block is idle: unspecified (R28, R186, R210); a free value, see log 8. -/
opaque freeMI : Nat → BitVec 3
/-- CI while the block is idle: unspecified (R28, R186, R210); a free value, see log 8. -/
opaque freeCI : Nat → BitVec 2
/-- BI while the block is idle: unspecified (R28, R186, R210); a free value, see log 8. -/
opaque freeBI : Nat → BitVec 7
/-- CSUM while the block is idle: unspecified (R28, R186, R210); a free value, see log 8. -/
opaque freeCSUM : Nat → BitVec 8

end Config

end Sys2Proof
end

