-- ==== Sys2Proof/Machine/State.lean ====
section
/-! DEFINITION. The state of the block (10_state.md R20), its port inputs and its output trace, as plain data; the
state after reset (R35); the reasons a step can stop. -/

namespace Sys2Proof.Machine

open Sys2Proof

/-- VERR, the validation-error register (10_state.md R24). Code 7 is never produced (U10). -/
inductive Verr where
  | none
  | messageTooLong
  | tooManyMessages
  | speedOutOfRange
  | unknownEffect
  | noMessages
  | illegalCommand
deriving DecidableEq, Repr

/-- RES, the result of the most recent run (10_state.md R25). Code 3 is never produced (U10). -/
inductive Res where
  | none
  | ok
  | ioError
deriving DecidableEq, Repr

/-- PH, the sequencer phase (10_state.md R28). -/
inductive Phase where
  | idle
  | init
  | initGap
  | pkt
  | pktGap
  | msgGap
  | term
deriving DecidableEq, Repr

/-- The sink's answer to a byte write (R33, R56). -/
inductive SinkAnswer where
  | ok
  | fail
deriving DecidableEq, Repr

/-- A sample of the reset pin (R210). `delivered` is the environment's choice whether a byte presented and not yet
answered at that moment reached the sink: both must be admitted (R211, U11). -/
inductive RstSample where
  | low
  | high (delivered : Bool)
deriving DecidableEq, Repr

/-- An event of the output trace (00_scope.md R8). -/
inductive Event where
  /-- byte `b` delivered to the sink -/
  | tx (b : Byte)
  /-- a delay interval of at least `d` milliseconds -/
  | gap (d : BitVec 16)
deriving DecidableEq, Repr

/-- The message store: linear address (20_memory.md R51) and byte, strictly rising; an address that is not listed
has no value (U5, log 10). -/
abbrev Memory := List Host.Cell

/-- The canonical form of a store: addresses strictly rising. -/
abbrev Memory.wf (m : Memory) : Prop := m.Pairwise (fun x y => x.1 < y.1)

structure State where
  /-- the variant parameters, fixed for the life of the block (R6, R30(a), log 11) -/
  cfg : Config
  /-- MB, the message store (R21) -/
  mb : Memory
  /-- CNT, messages appended (R22) -/
  cnt : BitVec 3
  /-- DLY, the inter-packet delay in milliseconds (R23) -/
  dly : BitVec 16
  /-- VERR (R24) -/
  verr : Verr
  /-- RES (R25) -/
  res : Res
  /-- PH (R28) -/
  ph : Phase
  /-- MI, index of the message being sent (R28) -/
  mi : BitVec 3
  /-- CI, index of the chunk being sent (R28) -/
  ci : BitVec 2
  /-- BI, index of the next byte of the current frame (R28) -/
  bi : BitVec 7
  /-- CSUM, the checksum accumulator (R29) -/
  csum : BitVec 8
  /-- bytes of a command received in part (R30(d), R212; the model's own, log 12) -/
  rx : List Byte
  /-- command bytes presented and not yet taken, oldest first (R31, R32; input, log 1) -/
  cmd : List Byte
  /-- the sink's answers to the coming writes, oldest first (R33; input, log 1) -/
  sink : List SinkAnswer
  /-- readings of the timebase, in milliseconds since the current interval began (R34, R150; input, log 5) -/
  tick : List Nat
  /-- samples of the reset pin, one a step; when the list is spent the pin is low (R210; input, log 6) -/
  rst : List RstSample
  /-- the output trace so far, oldest first (R8; observation, log 2) -/
  trace : List Event
  /-- how many times the sequencer counters became unspecified (the model's own, log 8) -/
  free : Nat
deriving DecidableEq, Repr

/-- The block right after reset (R35), with nothing presented at its ports and an empty trace. The values of `mi`,
`ci`, `bi` and `csum`, which R35 leaves unspecified, are DESIGN CHOICE (log 7); no statement rests on them. -/
def State.reset : State :=
  { cfg := Config.canonical, mb := [], cnt := 0, dly := Config.defaultDelayMs, verr := .none, res := .none,
    ph := .idle, mi := 0, ci := 0, bi := 0, csum := 0, rx := [], cmd := [], sink := [], tick := [], rst := [],
    trace := [], free := 0 }

/-- Evaluations that the spec says never happen. None is an error of the hardware (R191); each is safe, and none is
reached from a state that meets the invariant of Safety.lean (log 18). -/
inductive Fault where
  /-- a store access outside the message store: raised by memRead and memWrite (R50, R51, U2); safe -/
  | storeAddress
  /-- a read of a store byte that nothing has written: raised by memRead (R21, U5); safe -/
  | unwrittenStore
  /-- a byte position outside the frame: raised by the meanings of PKT and TERM (R28: BI is never past its bound);
  safe -/
  | framePosition
  /-- Term(n) for n = 0 or n > MAX_MESSAGES: raised where the sequencer builds the terminator (R129, U1, U2); safe -/
  | termDomain
deriving DecidableEq, Repr

/-- A refusal: only an instruction that has no meaning in the model. -/
inductive Refusal where
  /-- raised by exec's arm of an instruction that is not modelled yet; safe. No arm raises it now. -/
  | notModelled (mnemonic : String)
deriving DecidableEq, Repr

/-- What a meaning answers. -/
abbrev Result := Host.Outcome State Fault Refusal

end Sys2Proof.Machine
end

