-- ==== Sys2Proof/Machine/Ops.lean ====
section
/-! DEFINITION. The operations the meanings share: the message store (20_memory.md R50 to R53), the output trace, the
sequencer position (10_state.md R28), taking the two errors (60_exceptions.md R183, R186) and leaving the error state
(R189), the byte write (R33, R56) and reset (70_reset_and_hazards.md R210 to R212). -/

namespace Sys2Proof.Machine

open Sys2Proof

/-! ### The message store -/

/-- The byte at a linear address, none where nothing has written (R51, U5). -/
def Memory.read : Memory → Nat → Option Byte
  | [], _ => none
  | (k, b) :: m, a => if k = a then some b else Memory.read m a

/-- The `n` bytes from `a` on, in ascending order (R51). -/
def Memory.readBlock (m : Memory) : Nat → Nat → Option (List Byte)
  | _, 0 => some []
  | a, n + 1 =>
    match m.read a, Memory.readBlock m (a + 1) n with
    | some b, some l => some (b :: l)
    | _, _ => none

/-- Bytes laid out at ascending addresses from `a` on. -/
def cellsAt : Nat → List Byte → Memory
  | _, [] => []
  | a, b :: l => (a, b) :: cellsAt (a + 1) l

/-- The store with the bytes `l` at the addresses from `a` on, in canonical form. -/
def Memory.writeBlock (m : Memory) (a : Nat) (l : List Byte) : Memory :=
  m.filter (fun x => x.1 < a) ++ cellsAt a l ++ m.filter (fun x => a + l.length ≤ x.1)

/-- Linear address of byte `a` of slot `s` (R51). -/
def slotAddr (s a : Nat) : Nat := Config.bufSize * s + a

/-- `MemRead(addr, n)` (R11, R51). -/
def memRead (s : State) (addr n : Nat) : Except Fault (List Byte) :=
  if addr + n ≤ s.cfg.storeSize then
    match s.mb.readBlock addr n with
    | some l => .ok l
    | none => .error .unwrittenStore
  else .error .storeAddress

/-- `MemWrite(addr, n, v)` with `n` the number of bytes of `v` (R11, R51). -/
def memWrite (s : State) (addr : Nat) (v : List Byte) : Except Fault State :=
  if addr + v.length ≤ s.cfg.storeSize then .ok { s with mb := s.mb.writeBlock addr v }
  else .error .storeAddress

/-! ### The output trace -/

/-- `Tx(b)` joins the trace (R8, R56). -/
def State.deliver (s : State) (b : Byte) : State := { s with trace := s.trace ++ [.tx b] }

/-! ### The sequencer position -/

/-- Entering a delay interval: PH moves to the gap phase and `Gap(DLY)` joins the trace, since the interval begins
when the step before it ends (R11, R150; log 3). -/
def State.enterGap (p : Phase) (s : State) : State := { s with ph := p, trace := s.trace ++ [.gap s.dly] }

/-- Entering PKT for chunk `c` of message `m` (R142: BI <- 0). -/
def State.startPacket (m : BitVec 3) (c : BitVec 2) (s : State) : State :=
  { s with ph := .pkt, mi := m, ci := c, bi := 0 }

/-- Entering TERM (R142: BI <- 0). -/
def State.enterTerm (s : State) : State := { s with ph := .term, bi := 0 }

/-- PH <- IDLE: MI, CI, BI and CSUM become unspecified (R28, R186; free values, log 8). -/
def State.toIdle (s : State) : State :=
  { s with
    ph := .idle, mi := Config.freeMI s.free, ci := Config.freeCI s.free, bi := Config.freeBI s.free,
    csum := Config.freeCSUM s.free, free := s.free + 1 }

/-! ### Errors -/

/-- `raise ValidationError(code)`: VERR takes the code if it holds none; nothing else changes (R183, R185). -/
def raiseValidation (code : Verr) (s : State) : State :=
  if s.verr = .none then { s with verr := code } else s

/-- `raise IoError`: RES <- IoError, PH <- IDLE (R186). -/
def raiseIoError (s : State) : State := ({ s with res := .ioError } : State).toIdle

/-- Leaving the error state and starting a new list: CNT, VERR, RES <- 0 (R171, R189). -/
def leaveErrorState (s : State) : State := { s with cnt := 0, verr := .none, res := .none }

/-! ### The byte write -/

/-- `SinkWrite(b)` (R33, R56): on `ok` the byte is delivered and the position moves as `onOk` says; on `fail` the byte
is not delivered and IoError is raised; while the sink has not answered the core waits (R219, U7; log 4). -/
def sinkWrite (b : Byte) (onOk : State → State) (s : State) : Result :=
  match s.sink with
  | [] => .next s
  | .ok :: r => .next (onOk (({ s with sink := r } : State).deliver b))
  | .fail :: r => .next (raiseIoError { s with sink := r })

/-! ### Reset -/

/-- What a reset leaves at the far end of a byte in flight: delivered or not, as the environment chose (R211, U11). -/
def inFlight (delivered : Bool) (presented : Option Byte) : List Event :=
  match delivered, presented with
  | true, some b => [.tx b]
  | _, _ => []

/-- Reset (R210 to R212): the state of R35; MB, MI, CI, BI and CSUM unspecified (the store lists nothing, the counters
are free values); the bytes received of a command in part are dropped; delivered bytes stay delivered. The other
agents' future (`cmd`, `sink`, `tick`, `rst`) and the configuration are not the block's to change. -/
def resetBlock (delivered : Bool) (presented : Option Byte) (s : State) : State :=
  { s with
    mb := [], cnt := 0, dly := Config.defaultDelayMs, verr := .none, res := .none, ph := .idle,
    mi := Config.freeMI s.free, ci := Config.freeCI s.free, bi := Config.freeBI s.free,
    csum := Config.freeCSUM s.free, free := s.free + 1, rx := [],
    trace := s.trace ++ inFlight delivered presented }

end Sys2Proof.Machine
end

