-- ==== Sys2Proof/Machine/Operands.lean ====
section
/-! DEFINITION. The operands of APPEND (30_encoding.md R75, R81, R82) and its four checks in their order
(40_message_builder.md R102 to R106, 60_exceptions.md R192). SETDELAY's operand is assembled in Decode.lean (R73). -/

namespace Sys2Proof.Machine

open Sys2Proof

/-- The closed set of effects (R82, R14). -/
inductive Effect where
  | hold
  | scroll
  | snow
  | flash
  | frame
deriving DecidableEq, Repr

/-- The effect's tag byte, the ASCII codes of 'A' to 'E' (R82, G1). -/
def effectTag : Effect → Byte
  | .hold => 0x41
  | .scroll => 0x42
  | .snow => 0x43
  | .flash => 0x44
  | .frame => 0x45

/-- The effect an `ef` byte stands for; none is *unknown* (R75). -/
def decodeEffect (ef : Byte) : Option Effect :=
  if ef = 0x00 then some .scroll
  else if ef = 0x41 then some .hold
  else if ef = 0x42 then some .scroll
  else if ef = 0x43 then some .snow
  else if ef = 0x44 then some .flash
  else if ef = 0x45 then some .frame
  else none

/-- What APPEND's operands come to: a validation error, or the effect to store. -/
inductive Checked where
  | error (code : Verr)
  | passed (effect : Effect)
deriving DecidableEq, Repr

/-- The four checks of APPEND, the first that fails ends the command (R102). -/
def checkAppend (cfg : Config) (cnt : BitVec 3) (sp ef : Byte) (text : List Byte) : Checked :=
  if Config.textLimit ≤ text.length then .error .messageTooLong
  else if cnt.toNat = cfg.maxMessages then .error .tooManyMessages
  else if sp.toNat < 1 ∨ 5 < sp.toNat then .error .speedOutOfRange
  else
    match decodeEffect ef with
    | none => .error .unknownEffect
    | some e => .passed e

end Sys2Proof.Machine
end

