-- ==== Sys2Proof/Machine/MessageBuilder.lean ====
section
/-! DEFINITION. MessageBuilder: the pure function Build and the command APPEND (40_message_builder.md). -/

namespace Sys2Proof.Machine

open Sys2Proof

/-- `Build(text, speed, effectTag, slotIndex)` (R100): header, text, zero padding to 256 bytes. -/
def build (text : List Byte) (speed tag : Byte) (slotIndex : Nat) : List Byte :=
  [0x30 + speed, 0x30 + BitVec.ofNat 8 slotIndex, tag, BitVec.ofNat 8 text.length] ++ text
    ++ List.replicate (Config.bufSize - Config.hdrSize - text.length) 0x00

/-- The success of APPEND: all 256 bytes of slot CNT, then CNT + 1, in one step (R107). -/
def storeMessage (buffer : List Byte) (s : State) : Result :=
  match memWrite s (slotAddr s.cnt.toNat 0) buffer with
  | .ok t => .next { t with cnt := t.cnt + 1 }
  | .error f => .fault f

/-- APPEND `sp`, `ef`, `text` (R102 to R108). -/
def execAppend (sp ef : Byte) (text : List Byte) (s : State) : Result :=
  if s.verr = .none then
    match checkAppend s.cfg s.cnt sp ef text with
    | .error code => .next (raiseValidation code s)
    | .passed e => storeMessage (build text sp (effectTag e) (s.cnt.toNat + 1)) s
  else .next s

end Sys2Proof.Machine
end

