-- ==== Sys2Proof/Syntax.lean ====
section
/-! DEFINITION. The rows of spec/opcode_table.json as syntax: the five host commands, the illegal opcodes, and the
three wire frames (00_scope.md R1, 30_encoding.md R70). -/

namespace Sys2Proof

/-- The two encoding spaces (R70): what drives the block, and what it emits. -/
inductive Space where
  | command
  | wire
deriving DecidableEq, Repr

/-- One constructor per row of the opcode table. -/
inductive Instr where
  /-- NOP, format C0 (R72, R170) -/
  | nop
  /-- CLEAR, format C0 (R72, R171) -/
  | clear
  /-- SETDELAY `ms`, format C2; the operand assembled as R73 says (R172) -/
  | setdelay (ms : BitVec 16)
  /-- APPEND `sp`, `ef`, `text`, format CA; `len` is the number of text bytes (R74, R102) -/
  | append (sp ef : Byte) (text : List Byte)
  /-- TRANSMIT, format C0 (R72, R141) -/
  | transmit
  /-- an illegal opcode 0x05 to 0xFF, one byte (R77, R174) -/
  | illegal (opcode : Byte)
  /-- the INIT frame, format W1 (R78, R120) -/
  | init
  /-- a PKT frame, format W69; the chunk offset byte is `chunk * 64`, so only `chunk` is an operand (R79, R121) -/
  | pkt (typeMarker : Byte) (chunk : BitVec 2) (payload : List Byte) (checksum : Byte)
  /-- a TERM frame, format W3; bits 7:6 of its mask byte are 0 (R80, R128) -/
  | term (bitmask : BitVec 6)
deriving DecidableEq, Repr

/-- The encoding space of each row (R70). -/
def Instr.space : Instr → Space
  | .nop => .command
  | .clear => .command
  | .setdelay _ => .command
  | .append _ _ _ => .command
  | .transmit => .command
  | .illegal _ => .command
  | .init => .wire
  | .pkt _ _ _ _ => .wire
  | .term _ => .wire

/-- The length of each row in bytes (R70). -/
def Instr.lengthBytes : Instr → Nat
  | .nop => 1
  | .clear => 1
  | .setdelay _ => 3
  | .append _ _ text => 4 + text.length
  | .transmit => 1
  | .illegal _ => 1
  | .init => 1
  | .pkt _ _ _ _ => 69
  | .term _ => 3

/-- The pseudo-instruction `MSG <speed>, "<text>"`: APPEND with the default effect (30_encoding.md R84). -/
def Instr.msg (speed : Byte) (text : List Byte) : Instr := .append speed 0x00 text

end Sys2Proof
end

