-- ==== Sys2Proof/Decode.lean ====
section
/-! DEFINITION. The two decoders (30_encoding.md R71 to R80), total on any bytes and rejecting by name, the encoder
written from the same tables, and the reading of an opcode-table word. -/

namespace Sys2Proof

/-- Why bytes are not read as an instruction. -/
inductive Reject where
  /-- the bytes end inside a command or a frame (R71) -/
  | incomplete
  /-- no frame starts with this byte (R78 to R80) -/
  | unknownStart (b : Byte)
  /-- no frame has this kind byte after 0x02 (R83) -/
  | unknownKind (b : Byte)
  /-- bits 5:0 of a chunk offset are 0 (R79) -/
  | reservedOffsetBits (b : Byte)
  /-- bits 7:6 of a terminator mask are 0 (R80, R130) -/
  | reservedMaskBits (b : Byte)
deriving DecidableEq, Repr

/-- What a decoder answers: an instruction and the bytes after it, or a rejection. -/
inductive Decoded where
  | ok (i : Instr) (rest : List Byte)
  | rejected (why : Reject)
deriving DecidableEq, Repr

/-- SETDELAY's operand `dh * 256 + dl` (R73). -/
def assembleDelay (dl dh : Byte) : BitVec 16 := BitVec.ofNat 16 (256 * dh.toNat + dl.toNat)

/-- SETDELAY after its opcode byte (R73). -/
def decodeSetdelay : List Byte → Decoded
  | dl :: dh :: rest => .ok (.setdelay (assembleDelay dl dh)) rest
  | _ => .rejected .incomplete

/-- APPEND after its opcode byte: `sp`, `ef`, `len`, then `len` text bytes (R71, R74). -/
def decodeAppend : List Byte → Decoded
  | sp :: ef :: len :: rest =>
    if rest.length < len.toNat then .rejected .incomplete
    else .ok (.append sp ef (rest.take len.toNat)) (rest.drop len.toNat)
  | _ => .rejected .incomplete

/-- The command decoder (R71, R72, R77): byte 0 is the opcode. -/
def decodeCommand : List Byte → Decoded
  | [] => .rejected .incomplete
  | op :: rest =>
    if op = 0x00 then .ok .nop rest
    else if op = 0x01 then .ok .clear rest
    else if op = 0x02 then decodeSetdelay rest
    else if op = 0x03 then decodeAppend rest
    else if op = 0x04 then .ok .transmit rest
    else .ok (.illegal op) rest

/-- A PKT frame after its two marker bytes (R79). -/
def decodePkt : List Byte → Decoded
  | tm :: off :: rest =>
    if off.extractLsb' 0 6 ≠ 0 then .rejected (.reservedOffsetBits off)
    else
      match rest.drop 64 with
      | ck :: more => .ok (.pkt tm (off.extractLsb' 6 2) (rest.take 64) ck) more
      | [] => .rejected .incomplete
  | _ => .rejected .incomplete

/-- A TERM frame after its two marker bytes (R80). -/
def decodeTerm : List Byte → Decoded
  | m :: rest =>
    if m.extractLsb' 6 2 ≠ 0 then .rejected (.reservedMaskBits m)
    else .ok (.term (m.extractLsb' 0 6)) rest
  | [] => .rejected .incomplete

/-- A frame after its start marker 0x02: the kind byte tells PKT from TERM (R79, R80). -/
def decodeMarked : List Byte → Decoded
  | [] => .rejected .incomplete
  | k :: rest =>
    if k = Config.pktMark then decodePkt rest
    else if k = Config.termMark then decodeTerm rest
    else .rejected (.unknownKind k)

/-- The frame decoder: what a reader of the sink stream sees (R78 to R80, R83). It reads the layout and not the values
the block would compute, see log 15. -/
def decodeWire : List Byte → Decoded
  | [] => .rejected .incomplete
  | b :: rest =>
    if b = Config.initByte then .ok .init rest
    else if b = Config.stx then decodeMarked rest
    else .rejected (.unknownStart b)

/-- The decoder of an encoding space (R70). -/
def decode : Space → List Byte → Decoded
  | .command => decodeCommand
  | .wire => decodeWire

/-- Byte 3 of a PKT frame: `c * 64` (R79, R81). -/
def chunkOffset (c : BitVec 2) : Byte := BitVec.ofNat 8 (64 * c.toNat)

/-- The bytes of an instruction, in the order they are presented or written (R57, R72 to R80). -/
def encode : Instr → List Byte
  | .nop => [0x00]
  | .clear => [0x01]
  | .setdelay ms => [0x02, BitVec.ofNat 8 ms.toNat, BitVec.ofNat 8 (ms.toNat / 256)]
  | .append sp ef text => 0x03 :: sp :: ef :: BitVec.ofNat 8 text.length :: text
  | .transmit => [0x04]
  | .illegal opcode => [opcode]
  | .init => [Config.initByte]
  | .pkt tm c payload ck => [Config.stx, Config.pktMark, tm, chunkOffset c] ++ payload ++ [ck]
  | .term mask => [Config.stx, Config.termMark, mask.setWidth 8]

/-- The first `n` bytes of the number `w`, least significant first. -/
def wordBytes : Nat → Nat → List Byte
  | 0, _ => []
  | n + 1, w => BitVec.ofNat 8 w :: wordBytes n (w / 256)

/-- The low 16 bits of a wire row with two marker bytes: the opcode table reads bytes 0 and 1 of the frame as one
number with byte 0 the most significant (match 0x0231, 0x0233), see log 14. -/
def isMarkedWord (nbits w : Nat) : Bool :=
  decide (16 ≤ nbits) && (w % 65536 == 0x0231 || w % 65536 == 0x0233)

/-- A marked frame's bytes from its table word: the 16-bit marker word most significant byte first, the later bytes
counting on from bit 16. -/
def markedWordBytes (w : Nat) : List Byte :=
  BitVec.ofNat 8 (w / 256) :: BitVec.ofNat 8 w :: wordBytes 67 (w / 65536)

/-- The instruction the decoders read from an opcode-table word of `nbits` bits; the bits above are 0. -/
def decodeTableWord (nbits w : Nat) : Option Instr :=
  let v := w % 2 ^ nbits
  match (if isMarkedWord nbits v then decodeWire (markedWordBytes v) else decodeCommand (wordBytes 259 v)) with
  | .ok i _ => some i
  | .rejected _ => none

end Sys2Proof
end

