-- ==== Sys2Proof/Machine/Packetizer.lean ====
section
/-! DEFINITION. The packetizer: the INIT, PKT and TERM frames as functions of the state, the checksum and its
accumulator, and the Write step of each frame (41_packetizer.md, 42_transmit_sequencer.md R143, R146, R149). -/

namespace Sys2Proof.Machine

open Sys2Proof

/-! ### The frames -/

/-- Byte 2 of a PKT frame of message `i` (R121). -/
def typeMarker (cfg : Config) (i : Nat) : Byte :=
  if cfg.typeMarkerPerSlot then BitVec.ofNat 8 (Config.typeBase + i) else BitVec.ofNat 8 Config.typeBase

/-- Byte 68 of a PKT frame: the sum of positions 1 to 67, modulo 256 (R124). -/
def pktChecksum (tm : Byte) (c : BitVec 2) (payload : List Byte) : Byte :=
  byteSum (Config.pktMark :: tm :: chunkOffset c :: payload)

/-- The PKT frame of message `i`, chunk `c`, with that chunk's bytes (R121). -/
def pktInstr (cfg : Config) (i : Nat) (c : BitVec 2) (payload : List Byte) : Instr :=
  .pkt (typeMarker cfg i) c payload (pktChecksum (typeMarker cfg i) c payload)

/-- Chunk `c` of a message buffer: its bytes `c*64 .. c*64+64`, end excluded (R54). -/
def chunkOf (B : List Byte) (c : BitVec 2) : List Byte := (B.drop (Config.chunkSize * c.toNat)).take Config.chunkSize

/-- `Pkt(B, i, c)` (R121). -/
def pktBytes (cfg : Config) (B : List Byte) (i : Nat) (c : BitVec 2) : List Byte :=
  encode (pktInstr cfg i c (chunkOf B c))

/-- The mask of `Term(n)`: `(1 << n) - 1` (R128). -/
def termMask (n : Nat) : BitVec 6 := BitVec.ofNat 6 ((1 <<< n) - 1)

/-- The TERM frame for `n` messages (R128). -/
def termInstr (n : Nat) : Instr := .term (termMask n)

/-- `Term(n)` (R128). -/
def termBytes (n : Nat) : List Byte := encode (termInstr n)

/-- `InitFrame()` (R120). -/
def initBytes : List Byte := encode .init

/-! ### The frame being sent -/

/-- The PKT frame at the sequencer position: it reads `MB[MI][CI*64 .. CI*64+64]` (R145). -/
def currentPkt (s : State) : Except Fault Instr :=
  match memRead s (slotAddr s.mi.toNat (Config.chunkSize * s.ci.toNat)) Config.chunkSize with
  | .ok payload => .ok (pktInstr s.cfg s.mi.toNat s.ci payload)
  | .error f => .error f

/-- The TERM frame, for 1 to MAX_MESSAGES messages only (R128, R129). -/
def currentTerm (s : State) : Except Fault Instr :=
  if 1 ≤ s.cnt.toNat ∧ s.cnt.toNat ≤ s.cfg.maxMessages then .ok (termInstr s.cnt.toNat)
  else .error .termDomain

/-- Byte `k` of a PKT frame as it is written: at k = 68 the byte is the accumulator (R122, R125, R146; log 26). -/
def pktByte (tm : Byte) (c : BitVec 2) (payload : List Byte) (ck csum : Byte) (k : Nat) : Option Byte :=
  if k = 68 then some csum else (encode (.pkt tm c payload ck))[k]?

/-- Byte `k` of a TERM frame (R149). -/
def termByte (mask : BitVec 6) (k : Nat) : Option Byte := (encode (.term mask))[k]?

/-- `tx_data`: the byte presented to the sink, if one is (R31, R33). -/
def State.txData (s : State) : Option Byte :=
  match s.ph with
  | .init => some Config.initByte
  | .pkt =>
    match currentPkt s with
    | .ok (.pkt tm c payload ck) => pktByte tm c payload ck s.csum s.bi.toNat
    | _ => none
  | .term =>
    match currentTerm s with
    | .ok (.term mask) => termByte mask s.bi.toNat
    | _ => none
  | .idle | .initGap | .pktGap | .msgGap => none

/-! ### The accumulator and the position after a write -/

/-- CSUM after byte `k` of a PKT frame was written (R125). -/
def accumulate (k : Nat) (csum b : Byte) : Byte :=
  if k = 0 then 0 else if k ≤ 67 then csum + b else csum

/-- The position after INIT's byte: the gap, or at once the first packet (R142, R143). -/
def afterInit (s : State) : State :=
  if s.cfg.delayAfterInit then s.enterGap .initGap else s.startPacket 0 0

/-- The position after byte `k` of a PKT frame (R142, R146). -/
def afterPktByte (k : Nat) (b : Byte) (s : State) : State :=
  if k = 68 then s.enterGap .pktGap else { s with csum := accumulate k s.csum b, bi := s.bi + 1 }

/-- The end of a successful run: RES <- Ok, PH <- IDLE (R156). -/
def finishRun (s : State) : State := ({ s with res := .ok } : State).toIdle

/-- The position after byte `k` of a TERM frame (R142, R149). -/
def afterTermByte (k : Nat) (s : State) : State :=
  if k = 2 then finishRun s else { s with bi := s.bi + 1 }

/-! ### The Write steps -/

/-- The Write step of the INIT frame (R120, R143). -/
def execInit (s : State) : Result := sinkWrite Config.initByte afterInit s

/-- The Write step of byte BI of a PKT frame (R122, R125, R146). -/
def execPkt (tm : Byte) (c : BitVec 2) (payload : List Byte) (ck : Byte) (s : State) : Result :=
  match pktByte tm c payload ck s.csum s.bi.toNat with
  | some b => sinkWrite b (afterPktByte s.bi.toNat b) s
  | none => .fault .framePosition

/-- The Write step of byte BI of a TERM frame (R128, R149). -/
def execTerm (mask : BitVec 6) (s : State) : Result :=
  match termByte mask s.bi.toNat with
  | some b => sinkWrite b (afterTermByte s.bi.toNat) s
  | none => .fault .framePosition

end Sys2Proof.Machine
end

