-- ==== Sys2Proof/Machine/Sequencer.lean ====
section
/-! DEFINITION. The transmit sequencer: the command TRANSMIT, the end of a delay interval, and the whole sequence
`Seq` a successful run emits (42_transmit_sequencer.md). -/

namespace Sys2Proof.Machine

open Sys2Proof

/-- TRANSMIT (R141): refused while VERR holds an error; NoMessages if the list is empty; else the run starts. -/
def execTransmit (s : State) : Result :=
  if s.verr = .none then
    if s.cnt = 0 then .next (raiseValidation .noMessages s)
    else .next { s with res := .none, ph := .init }
  else .next s

/-- `Elapse`: the end of the delay interval the core is in (R142, R144, R147, R148). -/
def elapse (s : State) : State :=
  match s.ph with
  | .initGap => s.startPacket 0 0
  | .pktGap => if s.ci.toNat < 3 then s.startPacket s.mi (s.ci + 1) else s.enterGap .msgGap
  | .msgGap => if s.mi.toNat + 1 < s.cnt.toNat then s.startPacket (s.mi + 1) 0 else s.enterTerm
  | .idle | .init | .pkt | .term => s

/-- A step in a gap phase. With DLY = 0 the interval ends at once and takes no reading of the timebase (R34); else it
ends once the timebase reads at least DLY, and until then the core waits (R34, R150, R219; log 4, log 5). -/
def awaitElapse (s : State) : State :=
  if s.dly = 0 then elapse s
  else
    match s.tick with
    | [] => s
    | m :: r => if m < s.dly.toNat then { s with tick := r } else elapse { s with tick := r }

/-! ### The whole sequence -/

/-- `Tx*(F)`: the bytes of a frame in ascending position (R140). -/
def txAll (F : List Byte) : List Event := F.map .tx

/-- One packet and the gap after it (R140). -/
def pktEvents (cfg : Config) (d : BitVec 16) (B : List Byte) (i : Nat) (c : BitVec 2) : List Event :=
  txAll (pktBytes cfg B i c) ++ [.gap d]

/-- The four packets of a message, each with its gap (R140). -/
def messageEvents (cfg : Config) (d : BitVec 16) (B : List Byte) (i : Nat) : List Event :=
  [0#2, 1#2, 2#2, 3#2].flatMap (pktEvents cfg d B i)

/-- The init byte and, with DELAY_AFTER_INIT, its gap (R140). -/
def initEvents (cfg : Config) (d : BitVec 16) : List Event :=
  txAll initBytes ++ (if cfg.delayAfterInit then [.gap d] else [])

/-- The first `n` messages, each with the boundary pause after it (R140). -/
def messagesEvents (cfg : Config) (d : BitVec 16) (buf : Nat → List Byte) (n : Nat) : List Event :=
  (List.range n).flatMap (fun i => messageEvents cfg d (buf i) i ++ [.gap d])

/-- `Seq(MB, n, d)`: what a successful run emits (R140), `buf i` being the buffer of message `i`. -/
def seqEvents (cfg : Config) (d : BitVec 16) (buf : Nat → List Byte) (n : Nat) : List Event :=
  initEvents cfg d ++ messagesEvents cfg d buf n ++ txAll (termBytes n)

/-- The 256 bytes of slot `i` of the store, the empty list where a byte is unwritten (R53). -/
def slotBytes (m : Memory) (i : Nat) : List Byte :=
  (m.readBlock (slotAddr i 0) Config.bufSize).getD []

end Sys2Proof.Machine
end

