-- ==== Sys2Proof/Machine/SystemCommands.lean ====
section
/-! DEFINITION. The commands that manage the block: NOP, CLEAR, SETDELAY and the illegal opcodes
(43_system_commands.md). -/

namespace Sys2Proof.Machine

open Sys2Proof

/-- NOP: nothing (R170). -/
def execNop (s : State) : Result := .next s

/-- CLEAR: CNT, VERR, RES <- 0, whatever VERR holds (R171). -/
def execClear (s : State) : Result := .next (leaveErrorState s)

/-- SETDELAY `ms`: DLY <- ms, refused while VERR holds an error (R172). -/
def execSetdelay (ms : BitVec 16) (s : State) : Result :=
  if s.verr = .none then .next { s with dly := ms } else .next s

/-- An illegal opcode raises IllegalCommand (R174, R185); which opcode it was is not recorded (R180). -/
def execIllegal (_opcode : Byte) (s : State) : Result := .next (raiseValidation .illegalCommand s)

end Sys2Proof.Machine
end

