-- ==== Sys2Proof/Machine/Dispatch.lean ====
section
/-! DEFINITION. exec: one arm per row of the opcode table, each one call of that row's meaning. -/

namespace Sys2Proof.Machine

open Sys2Proof

def exec (i : Instr) (s : State) : Host.Outcome State Fault Refusal :=
  match i with
  -- host commands (43_system_commands.md, 40_message_builder.md, 42_transmit_sequencer.md)
  | .nop => Sys2Proof.Machine.execNop s
  | .clear => Sys2Proof.Machine.execClear s
  | .setdelay ms => Sys2Proof.Machine.execSetdelay ms s
  | .append sp ef text => Sys2Proof.Machine.execAppend sp ef text s
  | .transmit => Sys2Proof.Machine.execTransmit s
  | .illegal opcode => Sys2Proof.Machine.execIllegal opcode s
  -- wire frames (41_packetizer.md)
  | .init => Sys2Proof.Machine.execInit s
  | .pkt tm c payload ck => Sys2Proof.Machine.execPkt tm c payload ck s
  | .term mask => Sys2Proof.Machine.execTerm mask s

end Sys2Proof.Machine
end

