-- ==== Sys2Proof/Machine/Fetch.lean ====
section
/-! DEFINITION. What a step does before an instruction runs: reset, the taking of a command from the command port, the
frame at the sequencer position, the waiting in a gap (00_scope.md R8, 10_state.md R32, 42_transmit_sequencer.md R142,
70_reset_and_hazards.md R210 to R212); and the placing of an instruction where the next step fetches it. -/

namespace Sys2Proof.Machine

open Sys2Proof

/-- What a step finds to do. -/
inductive Fetched where
  /-- run this instruction in this state -/
  | run (i : Instr) (s : State)
  /-- the step runs no row of the table: a reset, an incomplete command, a delay interval -/
  | other (s : State)
  /-- no frame has a meaning at this position -/
  | stop (f : Fault)

/-- The frame to write, or the reason there is none. -/
def fetchFrame (frame : Except Fault Instr) (s : State) : Fetched :=
  match frame with
  | .ok i => .run i s
  | .error f => .stop f

/-- Taking a command while PH = IDLE: whole, or its bytes are received and have no effect yet (R32, R71). -/
def fetchCommand (s : State) : Fetched :=
  match decodeCommand (s.rx ++ s.cmd) with
  | .ok i rest => .run i { s with rx := [], cmd := rest }
  | .rejected _ => .other { s with rx := s.rx ++ s.cmd, cmd := [] }

/-- The core's next step by phase (R28). -/
def fetchByPhase (s : State) : Fetched :=
  match s.ph with
  | .idle => fetchCommand s
  | .init => .run .init s
  | .pkt => fetchFrame (currentPkt s) s
  | .term => fetchFrame (currentTerm s) s
  | .initGap | .pktGap | .msgGap => .other (awaitElapse s)

/-- The reset pin is sampled first and wins over everything (R192, R210). -/
def fetch (s : State) : Fetched :=
  match s.rst with
  | .high delivered :: r => .other (resetBlock delivered s.txData { s with rst := r })
  | .low :: r => fetchByPhase { s with rst := r }
  | [] => fetchByPhase s

/-! ### Placing an instruction for the next step (log 20) -/

/-- MI of a PKT frame with this type marker, 0 where the marker names no slot. -/
def slotOfMarker (tm : Byte) : Nat :=
  if Config.typeBase ≤ tm.toNat ∧ tm.toNat < Config.typeBase + 6 then tm.toNat - Config.typeBase else 0

/-- CNT of a terminator mask, 1 for a mask that is no mask of R128. -/
def countOfMask (mask : BitVec 6) : Nat :=
  ([1, 2, 3, 4, 5, 6].find? (fun n => termMask n == mask)).getD 1

/-- The state whose next step runs `i`: a command's bytes stand first at the command port of the idle block; for a
frame the position is its first byte, the store and CNT are such that the sequencer builds it, and the sink answers
the write. -/
def placeInstr (i : Instr) (s : State) : State :=
  match i with
  | .init => { s with rst := [], ph := .init, sink := .ok :: s.sink }
  | .pkt tm c payload _ =>
    { s with
      rst := [], ph := .pkt, mi := BitVec.ofNat 3 (slotOfMarker tm), ci := c, bi := 0,
      cnt := BitVec.ofNat 3 (max s.cnt.toNat (slotOfMarker tm + 1)),
      mb := s.mb.writeBlock (slotAddr (slotOfMarker tm) (Config.chunkSize * c.toNat)) payload,
      sink := .ok :: s.sink }
  | .term mask =>
    { s with rst := [], ph := .term, bi := 0, cnt := BitVec.ofNat 3 (countOfMask mask), sink := .ok :: s.sink }
  | .nop | .clear | .setdelay _ | .append _ _ _ | .transmit | .illegal _ =>
    { s with rst := [], ph := .idle, rx := [], cmd := encode i ++ s.cmd }

end Sys2Proof.Machine
end

