-- ==== Sys2Proof/Machine/Flags.lean ====
section
/-! DEFINITION. The flags and output ports: the codes of VERR and RES (10_state.md R24, R25), BUSY (R26), STATUS (R27)
and the handshake outputs of the command port (R31, R32). -/

namespace Sys2Proof.Machine

open Sys2Proof

/-- The code of VERR (R24). -/
def verrCode : Verr → BitVec 3
  | .none => 0
  | .messageTooLong => 1
  | .tooManyMessages => 2
  | .speedOutOfRange => 3
  | .unknownEffect => 4
  | .noMessages => 5
  | .illegalCommand => 6

/-- The code of RES (R25). -/
def resCode : Res → BitVec 2
  | .none => 0
  | .ok => 1
  | .ioError => 2

/-- BUSY = (PH != IDLE) (R26). -/
def State.busy (s : State) : Bool := s.ph != .idle

/-- STATUS: bit 0 BUSY, 3:1 VERR, 5:4 RES, 8:6 CNT, 15:9 zero (R27). -/
def State.status (s : State) : BitVec 16 :=
  0#7 ++ s.cnt ++ resCode s.res ++ verrCode s.verr ++ BitVec.ofBool s.busy

/-- The `dly` output (R27). -/
def State.dlyOut (s : State) : BitVec 16 := s.dly

/-- `cmd_ready`: command bytes are taken only while PH = IDLE (R31, R32). -/
def State.cmdReady (s : State) : Bool := !s.busy

/-- `tx_valid`: a byte is presented in the phases INIT, PKT and TERM (R28, R31, R33). -/
def State.txValid (s : State) : Bool := s.ph == .init || s.ph == .pkt || s.ph == .term

end Sys2Proof.Machine
end

