-- ==== Sys2Proof/Machine/Step.lean ====
section
/-! DEFINITION. One step of the block (00_scope.md R8): Accept, Write, Elapse or Reset. -/

namespace Sys2Proof.Machine

open Sys2Proof

/-- One step: what Fetch.lean finds to do, with exec for an instruction. -/
def step (s : State) : Host.Outcome State Fault Refusal :=
  match fetch s with
  | .run i t => exec i t
  | .other t => .next t
  | .stop f => .fault f

/-- `s` with the instruction of an opcode-table word where the next step fetches it (log 20); `s` itself where the
decoder reads no instruction. -/
def State.withFetchWord (s : State) (nbits w : Nat) : State :=
  match decodeTableWord nbits w with
  | some i => placeInstr i s
  | none => s

end Sys2Proof.Machine
end

