-- ==== Sys2Proof/WellFormed.lean ====
section
/-! DEFINITION. Which terms of `Instr` are instructions of the block: a command some byte string encodes, or a frame
the block emits (30_encoding.md R74, R77, R79, R80, R83). -/

namespace Sys2Proof

/-- Why a term is no instruction. -/
inductive IllFormed where
  /-- APPEND carries its length in one byte (R74, U6) -/
  | textNotEncodable
  /-- 0x00 to 0x04 are defined opcodes (R72, R77) -/
  | opcodeIsDefined
  /-- a PKT payload is 64 bytes (R79) -/
  | payloadLength
  /-- a type marker is 0x06 to 0x0B (R79, R83) -/
  | typeMarkerRange
  /-- the checksum is the sum of positions 1 to 67 (R79, R124) -/
  | checksumWrong
  /-- a mask is never 0 (R83) -/
  | maskZero
  /-- a mask has no clear bit below a set bit (R83) -/
  | maskHole
deriving DecidableEq, Repr

/-- The first check a term fails, none if it is an instruction. -/
def Instr.check : Instr → Option IllFormed
  | .nop => none
  | .clear => none
  | .setdelay _ => none
  | .append _ _ text => if text.length ≤ 255 then none else some .textNotEncodable
  | .transmit => none
  | .illegal opcode => if 5 ≤ opcode.toNat then none else some .opcodeIsDefined
  | .init => none
  | .pkt tm c payload ck =>
    if payload.length ≠ 64 then some .payloadLength
    else if tm.toNat < 6 ∨ 11 < tm.toNat then some .typeMarkerRange
    else if ck ≠ byteSum (Config.pktMark :: tm :: chunkOffset c :: payload) then some .checksumWrong
    else none
  | .term mask =>
    if mask = 0 then some .maskZero
    else if mask &&& (mask + 1) ≠ 0 then some .maskHole
    else none

/-- A term is an instruction when no check refuses it. -/
abbrev Instr.wf (i : Instr) : Prop := i.check = none

end Sys2Proof
end

