-- ==== Sys2Proof/Safety.lean ====
section
/-! DEFINITION. The invariant of the block, what counts as a safe run, and what a run has emitted so far: the terms the
statements use. -/

namespace Sys2Proof.Machine

open Sys2Proof

/-- The layout of the message buffer of slot `i` (20_memory.md R53). -/
def legalBuffer (i : Nat) (B : List Byte) : Bool :=
  match B with
  | sp :: slot :: tag :: len :: body =>
    decide (0x31 ≤ sp.toNat ∧ sp.toNat ≤ 0x35) && decide (slot.toNat = 0x31 + i)
      && decide (0x41 ≤ tag.toNat ∧ tag.toNat ≤ 0x45) && decide (len.toNat < Config.textLimit)
      && decide (body.length = 252) && (body.drop len.toNat).all (· == 0x00)
  | _ => false

/-- The PKT frame at the sequencer position, from the store (R145, R121). -/
def positionBytes (s : State) : List Byte := pktBytes s.cfg (slotBytes s.mb s.mi.toNat) s.mi.toNat s.ci

/-- The accumulator holds the sum of the bytes from position 1 on that were written (R125). -/
def csumAgrees (s : State) : Prop :=
  1 ≤ s.bi.toNat → s.csum = byteSum (((positionBytes s).take s.bi.toNat).drop 1)

/-- The bounds of MI and BI in the phases where they have a meaning (R28). -/
def positionInv (s : State) : Prop :=
  match s.ph with
  | .idle | .init => True
  | .initGap => s.cfg.delayAfterInit = true
  | .pkt => s.mi.toNat < s.cnt.toNat ∧ s.bi.toNat ≤ 68 ∧ csumAgrees s
  | .pktGap | .msgGap => s.mi.toNat < s.cnt.toNat
  | .term => s.bi.toNat ≤ 2

/-- The invariant of the block. -/
structure Inv (s : State) : Prop where
  /-- the store is in canonical form -/
  store_wf : Memory.wf s.mb
  /-- no byte lies outside the store (R50) -/
  store_bound : ∀ x ∈ s.mb, x.1 < s.cfg.storeSize
  /-- CNT never exceeds MAX_MESSAGES (R22) -/
  cnt_le : s.cnt.toNat ≤ s.cfg.maxMessages
  /-- every appended slot holds a message buffer (R53, R184) -/
  slots : ∀ i < s.cnt.toNat, legalBuffer i (slotBytes s.mb i) = true
  /-- what has been received of a command is not a whole one (R32) -/
  rx_open : decodeCommand s.rx = .rejected .incomplete
  /-- during a run there is a message, no validation error, no result yet, and nothing received (R25, R32, R141) -/
  running : s.ph ≠ .idle → s.verr = .none ∧ s.res = .none ∧ 1 ≤ s.cnt.toNat ∧ s.rx = []
  /-- MI, BI and CSUM agree with the phase (R28, R125) -/
  position : positionInv s

/-- A safe step answers a next state: the block has no error but the two it records (R191). -/
def SafeStep (s : State) : Prop := ∃ t, step s = .next t

/-- The state after `k` steps, or the stop met on the way. -/
def steps : Nat → State → Result
  | 0, s => .next s
  | k + 1, s =>
    match step s with
    | .next t => steps k t
    | .fault f => .fault f
    | .refused r => .refused r

/-- The reset pin is low for good. -/
def NoReset (s : State) : Prop := ∀ r ∈ s.rst, r = .low

/-- The reset pin is low at this step. -/
def NoResetNow (s : State) : Prop := ∀ d r, s.rst ≠ .high d :: r

/-- The readings end exactly `n` intervals of at least `d` milliseconds, one after another: each interval takes readings
until one of at least `d`, and the last reading ends the last (R150). -/
def endsIntervals (d : BitVec 16) : List Nat → Nat → Prop
  | [], n => n = 0
  | _ :: _, 0 => False
  | m :: l, n + 1 => if m < d.toNat then endsIntervals d l (n + 1) else endsIntervals d l n

/-- The packets of message `m` before chunk `c`, each with its gap (R140). -/
def packetsBefore (cfg : Config) (d : BitVec 16) (B : List Byte) (i c : Nat) : List Event :=
  ([0#2, 1#2, 2#2, 3#2].take c).flatMap (pktEvents cfg d B i)

/-- What a run at this position has emitted since its start: a piece of `Seq` (R140, R142). -/
def emitted (s : State) : List Event :=
  let buf := slotBytes s.mb
  let B := buf s.mi.toNat
  let before := initEvents s.cfg s.dly ++ messagesEvents s.cfg s.dly buf s.mi.toNat
  match s.ph with
  | .idle | .init => []
  | .initGap => initEvents s.cfg s.dly
  | .pkt =>
    before ++ packetsBefore s.cfg s.dly B s.mi.toNat s.ci.toNat ++ txAll ((positionBytes s).take s.bi.toNat)
  | .pktGap => before ++ packetsBefore s.cfg s.dly B s.mi.toNat (s.ci.toNat + 1)
  | .msgGap => before ++ messageEvents s.cfg s.dly B s.mi.toNat ++ [.gap s.dly]
  | .term =>
    initEvents s.cfg s.dly ++ messagesEvents s.cfg s.dly buf s.cnt.toNat
      ++ txAll ((termBytes s.cnt.toNat).take s.bi.toNat)

/-- How many gaps a successful run of `n` messages has (R151). -/
def gapCount (cfg : Config) (n : Nat) : Nat := 5 * n + (if cfg.delayAfterInit then 1 else 0)

/-- How many bytes a successful run of `n` messages writes (R151). -/
def byteCount (n : Nat) : Nat := 276 * n + 4

/-- The whole sequence of the run of a state's message list (R140). -/
def fullSeq (s : State) : List Event := seqEvents s.cfg s.dly (slotBytes s.mb) s.cnt.toNat

end Sys2Proof.Machine
end

