-- ==== Sys2Proof/Certificates/Slice0/Obligations.lean ====
section
/-! DEFINITION. The statements about the model, each a Prop for a prover to settle. -/

open Sys2Proof Sys2Proof.Machine

/-! ### Encodings (30_encoding.md) -/

/-- Decoding the bytes of a well-formed instruction gives it back, whatever follows it. -/
def Obligations.DecodeOfEncodeGivesTheInstruction : Prop :=
  ∀ (i : Instr) (rest : List Byte), i.wf → decode i.space (encode i ++ rest) = .ok i rest

/-- Whatever a decoder reads, encoding it gives the bytes it was read from, and a decoded command is well formed. -/
def Obligations.EncodeOfDecodeGivesTheBytes : Prop :=
  ∀ (sp : Space) (bs : List Byte) (i : Instr) (rest : List Byte), decode sp bs = .ok i rest →
    i.space = sp ∧ encode i ++ rest = bs ∧ (sp = .command → i.wf)

/-- A command's reading does not depend on what follows it; the only rejection is an incomplete last command, which
more bytes can complete. -/
def Obligations.CommandDecoderIsTotalAndReadsOwnBytes : Prop :=
  ∀ bs : List Byte,
    (∀ i rest more, decodeCommand bs = .ok i rest → decodeCommand (bs ++ more) = .ok i (rest ++ more)) ∧
    (∀ why, decodeCommand bs = .rejected why →
      why = .incomplete ∧ ∃ i more, decodeCommand (bs ++ more) = .ok i [])

/-- Words written out from the spec's encodings decode to the instruction they stand for (95_test_vectors.md). -/
def Obligations.SampleWordsDecode : Prop :=
  decodeCommand [0x00] = .ok .nop [] ∧
  decodeCommand [0x01] = .ok .clear [] ∧
  decodeCommand [0x02, 0xE8, 0x03] = .ok (.setdelay 1000) [] ∧
  decodeCommand [0x03, 0x03, 0x42, 0x05, 0x48, 0x65, 0x6C, 0x6C, 0x6F, 0x04] =
    .ok (.append 3 0x42 [0x48, 0x65, 0x6C, 0x6C, 0x6F]) [0x04] ∧
  decodeCommand [0x04] = .ok .transmit [] ∧
  decodeCommand [0x7F] = .ok (.illegal 0x7F) [] ∧
  decodeWire [0x00] = .ok .init [] ∧
  decodeWire ([0x02, 0x31, 0x06, 0x40] ++ List.replicate 64 0x00 ++ [0x77]) =
    .ok (.pkt 6 1 (List.replicate 64 0x00) 0x77) [] ∧
  decodeWire [0x02, 0x33, 0x07] = .ok (.term 0x07) []

/-! ### MessageBuilder (40_message_builder.md) -/

/-- The layout of Build's 256 bytes (R100). -/
def Obligations.BuildLaysOutTheBuffer : Prop :=
  ∀ (text : List Byte) (speed tag : Byte) (slotIndex : Nat),
    text.length ≤ 249 → 1 ≤ speed.toNat → speed.toNat ≤ 5 → 0x41 ≤ tag.toNat → tag.toNat ≤ 0x45 →
    1 ≤ slotIndex → slotIndex ≤ 6 →
    let B := build text speed tag slotIndex
    B.length = 256 ∧
    B[0]?.map BitVec.toNat = some (0x30 + speed.toNat) ∧
    B[1]?.map BitVec.toNat = some (0x30 + slotIndex) ∧
    B[2]? = some tag ∧
    B[3]?.map BitVec.toNat = some text.length ∧
    (∀ j < text.length, B[4 + j]? = text[j]?) ∧
    (∀ k, 4 + text.length ≤ k → k < 256 → B[k]? = some 0x00)

/-- A message that passes every check is stored whole in slot CNT, CNT goes up, and nothing else changes (R107). -/
def Obligations.AppendStoresTheMessage : Prop :=
  ∀ (s : State) (sp ef : Byte) (text : List Byte),
    s.verr = .none → text.length < 250 → s.cnt.toNat < s.cfg.maxMessages → 1 ≤ sp.toNat → sp.toNat ≤ 5 →
    (ef = 0x00 ∨ 0x41 ≤ ef.toNat ∧ ef.toNat ≤ 0x45) →
    ∃ t, exec (.append sp ef text) s = .next t ∧
      t.cnt.toNat = s.cnt.toNat + 1 ∧
      t.mb.readBlock (256 * s.cnt.toNat) 256 =
        some (build text sp (if ef = 0x00 then 0x42 else ef) (s.cnt.toNat + 1)) ∧
      (∀ a, a < 256 * s.cnt.toNat ∨ 256 * s.cnt.toNat + 256 ≤ a → Memory.read t.mb a = Memory.read s.mb a) ∧
      (Memory.wf s.mb → Memory.wf t.mb) ∧
      t = { s with mb := t.mb, cnt := t.cnt }

/-- The first check that fails is the error reported, and nothing but VERR changes. The order of the checks is the
choice of log 13 (R102, R192; U12). -/
def Obligations.AppendReportsTheFirstFailingCheck : Prop :=
  ∀ (s : State) (sp ef : Byte) (text : List Byte), s.verr = .none →
    (250 ≤ text.length → exec (.append sp ef text) s = .next { s with verr := .messageTooLong }) ∧
    (text.length < 250 → s.cnt.toNat = s.cfg.maxMessages →
      exec (.append sp ef text) s = .next { s with verr := .tooManyMessages }) ∧
    (text.length < 250 → s.cnt.toNat ≠ s.cfg.maxMessages → (sp.toNat < 1 ∨ 5 < sp.toNat) →
      exec (.append sp ef text) s = .next { s with verr := .speedOutOfRange }) ∧
    (text.length < 250 → s.cnt.toNat ≠ s.cfg.maxMessages → 1 ≤ sp.toNat → sp.toNat ≤ 5 →
      ef ≠ 0x00 → (ef.toNat < 0x41 ∨ 0x45 < ef.toNat) →
      exec (.append sp ef text) s = .next { s with verr := .unknownEffect })

/-- While a validation error is held, every command but CLEAR leaves the state as it is (R108, R141, R172 to R174). -/
def Obligations.ErrorStateRefusesEveryCommandButClear : Prop :=
  ∀ (i : Instr) (s : State), i.space = .command → i ≠ .clear → s.verr ≠ .none → exec i s = .next s

/-- An unspecified effect is Scroll: the two forms do the same in every state (R75). -/
def Obligations.UnspecifiedEffectIsScroll : Prop :=
  ∀ (sp : Byte) (text : List Byte) (s : State), exec (.append sp 0x00 text) s = exec (.append sp 0x42 text) s

/-! ### System commands (43_system_commands.md) and TRANSMIT (42_transmit_sequencer.md) -/

/-- NOP, byte 0x00, leaves every register unchanged, also while an error is held; like every command it is accepted
only while PH = IDLE (R170). -/
def Obligations.NopChangesNothing : Prop :=
  ∀ (s : State) (rest : List Byte),
    decodeCommand (0x00 :: rest) = .ok .nop rest ∧ exec .nop s = .next s ∧ (s.cmdReady = true ↔ s.ph = .idle)

/-- CLEAR, byte 0x01: CNT, VERR, RES <- 0, whatever VERR holds; all else, MB and DLY among it, is kept; and no other
command changes a VERR that is not None (R171). -/
def Obligations.ClearEmptiesTheListAndTheErrors : Prop :=
  ∀ s : State,
    (∀ rest, decodeCommand (0x01 :: rest) = .ok .clear rest) ∧
    exec .clear s = .next { s with cnt := 0, verr := .none, res := .none } ∧
    ∀ i t, i.space = .command → i ≠ .clear → s.verr ≠ .none → exec i s = .next t → t.verr = s.verr

/-- SETDELAY: DLY <- ms without an error held, nothing otherwise; its bytes are low byte first (R172). -/
def Obligations.SetdelayWritesTheDelay : Prop :=
  ∀ (s : State) (dl dh : Byte) (rest : List Byte),
    ∃ ms, decodeCommand (0x02 :: dl :: dh :: rest) = .ok (.setdelay ms) rest ∧
      ms.toNat = 256 * dh.toNat + dl.toNat ∧
      (s.verr = .none → exec (.setdelay ms) s = .next { s with dly := ms }) ∧
      (s.verr ≠ .none → exec (.setdelay ms) s = .next s)

/-- A byte 0x05 to 0xFF is a command of its own that records IllegalCommand, code 6, if no error is held, and changes
nothing else (R174). -/
def Obligations.IllegalOpcodeRecordsIllegalCommand : Prop :=
  ∀ (s : State) (op : Byte) (rest : List Byte), 5 ≤ op.toNat →
    decodeCommand (op :: rest) = .ok (.illegal op) rest ∧ verrCode .illegalCommand = 6 ∧
    (s.verr = .none → exec (.illegal op) s = .next { s with verr := .illegalCommand }) ∧
    (s.verr ≠ .none → exec (.illegal op) s = .next s)

/-- TRANSMIT, byte 0x04: refused under an error; NoMessages for an empty list, with RES and the trace as they were;
else the run starts with RES None, whatever RES was, and BUSY rises; it is not taken while BUSY (R141). -/
def Obligations.TransmitStartsARunOrRaisesNoMessages : Prop :=
  ∀ s : State,
    (∀ rest, decodeCommand (0x04 :: rest) = .ok .transmit rest) ∧
    (s.busy = true → s.cmdReady = false) ∧
    ({ s with ph := .init } : State).busy = true ∧
    (s.verr ≠ .none → exec .transmit s = .next s) ∧
    (s.verr = .none → s.cnt.toNat = 0 → exec .transmit s = .next { s with verr := .noMessages }) ∧
    (s.verr = .none → 1 ≤ s.cnt.toNat → exec .transmit s = .next { s with res := .none, ph := .init })

/-! ### Errors (60_exceptions.md) -/

/-- Taking a validation error: VERR takes the code only if it holds none; nothing else changes. The command that
raises one has no other effect, and while one is held no command raises another (R183). -/
def Obligations.RaiseValidationRecordsTheFirstError : Prop :=
  ∀ s : State,
    (∀ code, s.verr = .none → raiseValidation code s = { s with verr := code }) ∧
    (∀ code, s.verr ≠ .none → raiseValidation code s = s) ∧
    ∀ i t, i.space = .command → exec i s = .next t → t.verr ≠ .none → t.verr ≠ s.verr →
      s.verr = .none ∧ t = { s with verr := t.verr }

/-- A write the sink fails, in any frame: the byte is not delivered, RES <- IoError, PH <- IDLE, and MB, CNT, DLY and
VERR keep their values. MI, CI, BI and CSUM, unspecified then, and the model's counter `free` behind their values
(log 8) change and are not spoken of (R186). -/
def Obligations.FailedWriteRaisesIoError : Prop :=
  ∀ (i : Instr) (s : State) (r : List SinkAnswer), i.space = .wire → i.wf →
    (i = .init ∨ s.bi.toNat < i.lengthBytes) → s.sink = .fail :: r →
    ∃ t, exec i s = .next t ∧ t.res = .ioError ∧ t.ph = .idle ∧ t.trace = s.trace ∧ t.sink = r ∧
      t.mb = s.mb ∧ t.cnt = s.cnt ∧ t.dly = s.dly ∧ t.verr = s.verr ∧
      t.cfg = s.cfg ∧ t.rx = s.rx ∧ t.cmd = s.cmd ∧ t.tick = s.tick ∧ t.rst = s.rst

/-- While the sink has not answered, the core keeps presenting its byte and nothing changes (R33, R219). -/
def Obligations.SilentSinkKeepsTheCoreWaiting : Prop :=
  ∀ (i : Instr) (s : State), i.space = .wire → i.wf → (i = .init ∨ s.bi.toNat < i.lengthBytes) → s.sink = [] →
    exec i s = .next s

/-! ### Frames (41_packetizer.md) -/

/-- `Pkt(B, i, c)`, byte by byte (R121). -/
def Obligations.PacketBytesFollowTheLayout : Prop :=
  ∀ (cfg : Config) (B : List Byte) (i : Nat) (c : BitVec 2), B.length = 256 → i < cfg.maxMessages →
    let P := pktBytes cfg B i c
    P.length = 69 ∧ P[0]? = some 0x02 ∧ P[1]? = some 0x31 ∧
    P[2]?.map BitVec.toNat = some (if cfg.typeMarkerPerSlot then 6 + i else 6) ∧
    P[3]?.map BitVec.toNat = some (64 * c.toNat) ∧
    (∀ j < 64, P[4 + j]? = B[64 * c.toNat + j]?) ∧
    P[68]?.map BitVec.toNat = some ((((P.take 68).drop 1).map BitVec.toNat).sum % 256)

/-- The checksum is the unsigned sum of positions 1 to 67, its low 8 bits, and the exact sum is at most 17085 (R124). -/
def Obligations.ChecksumIsTheSumModulo256 : Prop :=
  ∀ (tm : Byte) (c : BitVec 2) (payload : List Byte), payload.length = 64 →
    let P := encode (.pkt tm c payload (pktChecksum tm c payload))
    let sum := (((P.take 68).drop 1).map BitVec.toNat).sum
    ((P.take 68).drop 1).length = 67 ∧ sum ≤ 17085 ∧ P[68]?.map BitVec.toNat = some (sum % 256)

/-- The four payloads, in chunk order, are the message buffer (R123). -/
def Obligations.FourPayloadsMakeTheBuffer : Prop :=
  ∀ (cfg : Config) (B : List Byte) (i : Nat), B.length = 256 →
    [0#2, 1#2, 2#2, 3#2].flatMap (fun c => ((pktBytes cfg B i c).take 68).drop 4) = B

/-- `Term(n)`: three bytes, and the mask has exactly the low `n` bits set (R128). -/
def Obligations.TermMaskHasExactlyTheLowBits : Prop :=
  ∀ n, 1 ≤ n → n ≤ 6 →
    termBytes n = [0x02, 0x33, BitVec.ofNat 8 ((1 <<< n) - 1)] ∧
    ∀ k < 8, (BitVec.ofNat 8 ((1 <<< n) - 1)).getLsbD k = decide (k < n)

/-- Every frame the sequencer builds is an instruction of the table: its marker, mask and checksum are among the
values the block emits (R83). -/
def Obligations.FramesSentAreWellFormed : Prop :=
  ∀ (s : State) (i : Instr), (currentPkt s = .ok i ∨ currentTerm s = .ok i) → i.wf ∧ i.space = .wire

/-- The Write step of INIT answered `ok`: 0x00 is delivered; then the gap, or at once the first packet when
DELAY_AFTER_INIT is false (R143). Gap(DLY) joins the trace when the interval begins: log 3. -/
def Obligations.InitWriteDeliversTheInitByte : Prop :=
  ∀ (s : State) (r : List SinkAnswer), s.sink = .ok :: r →
    (s.cfg.delayAfterInit = true →
      exec .init s = .next { s with sink := r, ph := .initGap, trace := s.trace ++ [.tx 0x00, .gap s.dly] }) ∧
    (s.cfg.delayAfterInit = false →
      exec .init s =
        .next { s with sink := r, ph := .pkt, mi := 0, ci := 0, bi := 0, trace := s.trace ++ [.tx 0x00] })

/-- The Write step of byte BI of PKT answered `ok`: byte BI of the frame is delivered, CSUM is cleared at byte 0 and
adds bytes 1 to 67; byte 68 is CSUM itself, and the gap begins (R125, R146). Gap(DLY) joins the trace when the interval
begins: log 3. -/
def Obligations.PacketWriteDeliversTheNextByte : Prop :=
  ∀ (tm : Byte) (c : BitVec 2) (payload : List Byte) (ck : Byte) (s : State) (r : List SinkAnswer),
    payload.length = 64 → s.sink = .ok :: r →
    (s.bi.toNat = 0 →
      exec (.pkt tm c payload ck) s =
        .next { s with sink := r, csum := 0, bi := 1, trace := s.trace ++ [.tx 0x02] }) ∧
    (∀ b, 1 ≤ s.bi.toNat → s.bi.toNat ≤ 67 → (encode (.pkt tm c payload ck))[s.bi.toNat]? = some b →
      exec (.pkt tm c payload ck) s =
        .next { s with sink := r, csum := s.csum + b, bi := s.bi + 1, trace := s.trace ++ [.tx b] }) ∧
    (s.bi.toNat = 68 →
      exec (.pkt tm c payload ck) s =
        .next { s with sink := r, ph := .pktGap, trace := s.trace ++ [.tx s.csum, .gap s.dly] })

/-- The Write step of byte BI of TERM answered `ok`: 0x02, 0x33, the mask; after the mask RES <- Ok and PH <- IDLE, and
nothing follows it. MI, CI, BI and CSUM, unspecified then, and the model's counter `free` behind their values (log 8)
change and are not spoken of (R149, R156). -/
def Obligations.TermWriteDeliversTheNextByte : Prop :=
  ∀ (mask : BitVec 6) (s : State) (r : List SinkAnswer), s.sink = .ok :: r →
    (s.bi.toNat = 0 →
      exec (.term mask) s = .next { s with sink := r, bi := 1, trace := s.trace ++ [.tx 0x02] }) ∧
    (s.bi.toNat = 1 →
      exec (.term mask) s = .next { s with sink := r, bi := 2, trace := s.trace ++ [.tx 0x33] }) ∧
    (s.bi.toNat = 2 →
      ∃ t, exec (.term mask) s = .next t ∧ t.res = .ok ∧ t.ph = .idle ∧
        t.trace = s.trace ++ [.tx (BitVec.ofNat 8 mask.toNat)] ∧ t.sink = r ∧
        t.mb = s.mb ∧ t.cnt = s.cnt ∧ t.dly = s.dly ∧ t.verr = s.verr ∧
        t.cfg = s.cfg ∧ t.rx = s.rx ∧ t.cmd = s.cmd ∧ t.tick = s.tick ∧ t.rst = s.rst)

/-- A position past a frame's end has no byte: the model stops by name there (the model's own, log 18). -/
def Obligations.PositionPastTheFrameStops : Prop :=
  ∀ (i : Instr) (s : State), i.space = .wire → i ≠ .init → i.wf → i.lengthBytes ≤ s.bi.toNat →
    exec i s = .fault .framePosition

/-! ### Steps (00_scope.md R8, 10_state.md R32 to R34) -/

/-- When the bytes received and presented begin with a well-formed command, the step of the idle block takes exactly
its bytes and executes it (R32, R71). -/
def Obligations.StepExecutesThePresentedCommand : Prop :=
  ∀ (s : State) (i : Instr) (rest : List Byte), NoResetNow s → s.ph = .idle → i.space = .command → i.wf →
    s.rx ++ s.cmd = encode i ++ rest →
    step s = exec i { s with rst := s.rst.tail, rx := [], cmd := rest }

/-- In INIT, PKT and TERM the step is the Write step of the frame at the sequencer position, built from the store and
from CNT (R142, R145, R146, R149). -/
def Obligations.StepWritesTheFrameAtThePosition : Prop :=
  ∀ s : State, NoResetNow s →
    (s.ph = .init → step s = exec .init { s with rst := s.rst.tail }) ∧
    (∀ payload, s.ph = .pkt → s.mi.toNat < s.cfg.maxMessages →
      s.mb.readBlock (256 * s.mi.toNat + 64 * s.ci.toNat) 64 = some payload →
      step s =
        exec (.pkt (typeMarker s.cfg s.mi.toNat) s.ci payload
          (pktChecksum (typeMarker s.cfg s.mi.toNat) s.ci payload)) { s with rst := s.rst.tail }) ∧
    (s.ph = .term → 1 ≤ s.cnt.toNat → s.cnt.toNat ≤ s.cfg.maxMessages →
      step s = exec (.term (BitVec.ofNat 6 ((1 <<< s.cnt.toNat) - 1))) { s with rst := s.rst.tail })

/-- The end of a delay interval, at once with DLY = 0 and with a reading of at least DLY otherwise, moves the sequencer
as R142 says: after INIT_GAP the first packet; after PKT_GAP the next chunk or the boundary pause; after MSG_GAP the
next message or the terminator (R34, R144, R147, R148). The boundary pause's Gap(DLY) joins the trace when it begins:
log 3. A reading is one entry of `tick`: log 5. -/
def Obligations.ElapseMovesTheSequencer : Prop :=
  ∀ (s : State) (r : List Nat), NoResetNow s →
    (s.dly = 0 ∧ r = s.tick ∨ s.dly ≠ 0 ∧ ∃ m, s.tick = m :: r ∧ s.dly.toNat ≤ m) →
    (s.ph = .initGap →
      step s = .next { s with rst := s.rst.tail, tick := r, ph := .pkt, mi := 0, ci := 0, bi := 0 }) ∧
    (s.ph = .pktGap → s.ci.toNat < 3 →
      step s = .next { s with rst := s.rst.tail, tick := r, ph := .pkt, ci := s.ci + 1, bi := 0 }) ∧
    (s.ph = .pktGap → s.ci.toNat = 3 →
      step s = .next { s with rst := s.rst.tail, tick := r, ph := .msgGap, trace := s.trace ++ [.gap s.dly] }) ∧
    (s.ph = .msgGap → s.mi.toNat + 1 < s.cnt.toNat →
      step s = .next { s with rst := s.rst.tail, tick := r, ph := .pkt, mi := s.mi + 1, ci := 0, bi := 0 }) ∧
    (s.ph = .msgGap → s.mi.toNat + 1 = s.cnt.toNat →
      step s = .next { s with rst := s.rst.tail, tick := r, ph := .term, bi := 0 })

/-- A delay interval of more than 0 milliseconds does not end before the timebase reads DLY milliseconds: until then
nothing but the inputs moves (R34, R150; the readings as entries of `tick`: log 5). -/
def Obligations.GapNeverEndsEarly : Prop :=
  ∀ s : State, NoResetNow s → (s.ph = .initGap ∨ s.ph = .pktGap ∨ s.ph = .msgGap) →
    (s.dly ≠ 0 → s.tick = [] → step s = .next { s with rst := s.rst.tail }) ∧
    (∀ m r, s.tick = m :: r → m < s.dly.toNat → step s = .next { s with rst := s.rst.tail, tick := r })

/-- A command received in part has no effect: its bytes are kept by the port and nothing else changes (R32). -/
def Obligations.IncompleteCommandHasNoEffect : Prop :=
  ∀ s : State, NoResetNow s → s.ph = .idle → (∀ i rest, decodeCommand (s.rx ++ s.cmd) ≠ .ok i rest) →
    step s = .next { s with rst := s.rst.tail, rx := s.rx ++ s.cmd, cmd := [] }

/-- No command byte is taken while a run is in progress (R32). -/
def Obligations.CommandsWaitWhileBusy : Prop :=
  ∀ s t : State, s.ph ≠ .idle → NoResetNow s → step s = .next t →
    s.cmdReady = false ∧ t.cmd = s.cmd ∧ t.rx = s.rx

/-! ### Reset (70_reset_and_hazards.md) -/

/-- Reset wins over every other event, in every state (R210). That the inputs the outside presents stay is the model's
choice (log 9, log 21). The unspecified MB, MI, CI, BI and CSUM and the model's counter `free` (log 8) are not spoken
of. -/
def Obligations.ResetGivesTheResetValues : Prop :=
  ∀ (s : State) (d : Bool) (r : List RstSample), s.rst = .high d :: r →
    ∃ t, step s = .next t ∧ t.cnt = 0 ∧ t.dly = 200 ∧ t.verr = .none ∧ t.res = .none ∧ t.ph = .idle ∧
      t.txValid = false ∧ t.cmdReady = true ∧ t.status = 0x0000 ∧
      t.cfg = s.cfg ∧ t.cmd = s.cmd ∧ t.sink = s.sink ∧ t.tick = s.tick ∧ t.rst = r

/-- At a reset the run ends with RES None; delivered bytes stay delivered; a byte presented and not yet answered may or
may not have been delivered (both are admitted: `d` is the environment's), and outside the writing phases there is
none, while in them, under the invariant, there is one (which byte it is says PresentedByteIsTheOneWritten); nothing
more is sent (R211). -/
def Obligations.ResetLeavesTheByteInFlightOpen : Prop :=
  ∀ (s : State) (d : Bool) (r : List RstSample), s.rst = .high d :: r →
    ∃ t, step s = .next t ∧ t.ph = .idle ∧ t.res = .none ∧
      (s.txValid = false → t.trace = s.trace) ∧
      (Inv s → s.txValid = true → ∃ b, s.txData = some b) ∧
      (∀ b, s.txData = some b → t.trace = if d then s.trace ++ [.tx b] else s.trace)

/-- Bytes of a command received in part are dropped by a reset: the next byte is byte 0 of a new command (R212). That a
command presented before the reset still stands at the port after it is the model's choice (log 9, log 21). -/
def Obligations.ResetDropsAPartlyReceivedCommand : Prop :=
  ∀ (s : State) (d : Bool) (r : List RstSample) (i : Instr) (rest : List Byte), s.rst = .high d :: r →
    (∀ e q, r ≠ .high e :: q) → i.space = .command → i.wf → s.cmd = encode i ++ rest →
    ∃ t, step s = .next t ∧ t.rx = [] ∧ step t = exec i { t with rst := t.rst.tail, cmd := rest }

/-- The state after reset: every value R35 gives, no store byte that can be read, and the outputs. -/
def Obligations.ResetStateHoldsTheResetValues : Prop :=
  State.reset.cnt = 0 ∧ State.reset.dly = 200 ∧ State.reset.verr = .none ∧ State.reset.res = .none ∧
  State.reset.ph = .idle ∧ State.reset.status = 0x0000 ∧ State.reset.txValid = false ∧
  State.reset.cmdReady = true ∧ State.reset.cfg = Config.canonical ∧ State.reset.rx = [] ∧
  ∀ a, Memory.read State.reset.mb a = none

/-! ### Outputs (10_state.md) -/

/-- STATUS, field by field, with the codes of VERR and RES one by one, and the `dly` output (R24, R25, R27). -/
def Obligations.StatusShowsTheRegisters : Prop :=
  ∀ s : State,
    s.status.getLsbD 0 = decide (s.ph ≠ .idle) ∧
    s.status.extractLsb' 1 3 = verrCode s.verr ∧
    s.status.extractLsb' 4 2 = resCode s.res ∧
    s.status.extractLsb' 6 3 = s.cnt ∧
    s.status.extractLsb' 9 7 = 0 ∧
    s.dlyOut = s.dly ∧
    verrCode .none = 0 ∧ verrCode .messageTooLong = 1 ∧ verrCode .tooManyMessages = 2 ∧
    verrCode .speedOutOfRange = 3 ∧ verrCode .unknownEffect = 4 ∧ verrCode .noMessages = 5 ∧
    verrCode .illegalCommand = 6 ∧ resCode .none = 0 ∧ resCode .ok = 1 ∧ resCode .ioError = 2

/-! ### Rules of the whole machine -/

/-- From every state that meets the invariant a step answers a next state that meets it: the block has no error but
the two it records, no store address is out of range, and no frame has a position past its end (R22, R28, R191). -/
def Obligations.EveryStepKeepsTheInvariant : Prop :=
  ∀ s : State, Inv s → ∃ t, step s = .next t ∧ Inv t

/-- The invariant holds after reset. -/
def Obligations.ResetMeetsTheInvariant : Prop := Inv State.reset

/-- Only APPEND, accepted with no error held, writes the message store; a reset makes it unspecified (R21, R52). -/
def Obligations.OnlyAppendWritesTheStore : Prop :=
  ∀ s t : State, step s = .next t → t.mb ≠ s.mb →
    (∃ d r, s.rst = .high d :: r) ∨
    (s.ph = .idle ∧ s.verr = .none ∧
      ∃ sp ef text rest, decodeCommand (s.rx ++ s.cmd) = .ok (.append sp ef text) rest)

/-- Only SETDELAY and reset write DLY, and no step writes the configuration (R23, R30). -/
def Obligations.OnlySetdelayChangesTheDelay : Prop :=
  ∀ s t : State, step s = .next t →
    t.cfg = s.cfg ∧
    (t.dly = s.dly ∨ (∃ d r, s.rst = .high d :: r) ∨
      (s.ph = .idle ∧ s.verr = .none ∧ ∃ rest, decodeCommand (s.rx ++ s.cmd) = .ok (.setdelay t.dly) rest))

/-- VERR is sticky: once an error is held, only CLEAR or a reset changes it (R24). -/
def Obligations.HeldErrorStaysUntilClearOrReset : Prop :=
  ∀ s t : State, step s = .next t → s.verr ≠ .none →
    t.verr = s.verr ∨ (∃ d r, s.rst = .high d :: r) ∨
    (s.ph = .idle ∧ t.verr = .none ∧ ∃ rest, decodeCommand (s.rx ++ s.cmd) = .ok .clear rest)

/-- Delivered bytes cannot be unsent: the trace only grows, by at most one byte and one gap a step (R56, R60). -/
def Obligations.TraceOnlyGrows : Prop :=
  ∀ s t : State, step s = .next t →
    ∃ more, t.trace = s.trace ++ more ∧
      (more = [] ∨ (∃ b, more = [.tx b]) ∨ more = [.gap s.dly] ∨ ∃ b, more = [.tx b, .gap s.dly])

/-- A validation error never reaches the sink: the step that raises one writes nothing and starts no run, and while
one is held the idle block writes nothing and starts no run (R184). -/
def Obligations.ValidationErrorNeverReachesTheSink : Prop :=
  ∀ s t : State, NoResetNow s → s.ph = .idle → step s = .next t → (s.verr ≠ .none ∨ t.verr ≠ .none) →
    t.trace = s.trace ∧ t.ph = .idle

/-- A run changes only the sequencer's registers and RES: the store, CNT, DLY and VERR are the same after each of its
steps (R155). -/
def Obligations.RunKeepsItsMessages : Prop :=
  ∀ s t : State, s.ph ≠ .idle → NoResetNow s → step s = .next t →
    t.mb = s.mb ∧ t.cnt = s.cnt ∧ t.dly = s.dly ∧ t.verr = s.verr ∧ t.cfg = s.cfg ∧
    (t.ph ≠ .idle → t.res = s.res)

/-- Slots no message was appended to are never read: a state whose store differs only at addresses from CNT*256 on
steps alike, and only the stores can differ after (R21, R145). -/
def Obligations.SlotsBeyondCountAreNeverRead : Prop :=
  ∀ (s t : State) (m : Memory), Inv s →
    (∀ a < 256 * s.cnt.toNat, Memory.read m a = Memory.read s.mb a) → step s = .next t →
    ∃ t', step { s with mb := m } = .next t' ∧ t = { t' with mb := t.mb } ∧
      ∀ a < 256 * t.cnt.toNat, Memory.read t'.mb a = Memory.read t.mb a

/-- What a run has emitted is tracked step by step: while it goes on, the trace since its start is the piece of `Seq`
its position stands for; it ends with `Seq` whole and RES Ok, or at a failed write with RES IoError and the trace as it
was (R140, R142, R152, R156). -/
def Obligations.RunTraceFollowsSeq : Prop :=
  ∀ (s t : State) (base : List Event), Inv s → s.ph ≠ .idle → NoResetNow s → s.trace = base ++ emitted s →
    step s = .next t →
    (t.ph ≠ .idle → t.trace = base ++ emitted t) ∧
    (t.ph = .idle →
      (t.res = .ok ∧ t.trace = base ++ fullSeq s) ∨ (t.res = .ioError ∧ t.trace = s.trace))

/-- What a run has emitted before its end is a proper initial piece of `Seq`: a failed run never sends the whole
sequence (R152, R153). -/
def Obligations.EmittedIsProperInitialPieceOfSeq : Prop :=
  ∀ s : State, Inv s → s.ph ≠ .idle → ∃ more, more ≠ [] ∧ fullSeq s = emitted s ++ more

/-- A run whose every write is answered `ok` and whose every interval ends emits exactly `Seq(MB, CNT, DLY)` and leaves
RES Ok (R140, R141, R142, R156). It takes one step for TRANSMIT, one for each byte (log 17) and one for each reading of
an interval, or, with DLY = 0, one for each interval and no reading (log 5). That sink and timebase go on is a premise
(log 24). -/
def Obligations.SuccessfulRunEmitsSeq : Prop :=
  ∀ (s : State) (rest : List Byte) (answers : List SinkAnswer) (gaps readings : List Nat) (n k : Nat),
    Inv s → NoReset s → s.ph = .idle → s.verr = .none → 1 ≤ s.cnt.toNat →
    s.rx ++ s.cmd = 0x04 :: rest →
    s.sink = List.replicate (byteCount s.cnt.toNat) .ok ++ answers →
    n = gapCount s.cfg s.cnt.toNat → s.tick = gaps ++ readings →
    (s.dly = 0 ∧ gaps = [] ∧ k = n ∨ s.dly ≠ 0 ∧ endsIntervals s.dly gaps n ∧ k = gaps.length) →
    ∃ t, steps (1 + byteCount s.cnt.toNat + k) s = .next t ∧
      t.trace = s.trace ++ fullSeq s ∧ t.res = .ok ∧ t.ph = .idle ∧
      t.mb = s.mb ∧ t.cnt = s.cnt ∧ t.dly = s.dly ∧ t.verr = .none ∧
      t.cmd = rest ∧ t.sink = answers ∧ t.tick = readings

/-- Every run ends: whatever the sink answers, if it goes on answering and the timebase goes on reaching DLY, the
block is idle again, with a result, within as many steps as the longest sequence has bytes and gaps, and one more for
each reading below DLY. That sink and timebase go on is a premise, no rule of the machine (R154, R219; log 24); the
readings are entries of `tick`, none taken with DLY = 0 (log 5). -/
def Obligations.EveryRunEnds : Prop :=
  ∀ s : State, Inv s → s.ph ≠ .idle → NoReset s → 1660 ≤ s.sink.length →
    (s.dly = 0 ∨ 31 ≤ (s.tick.filter (fun m => s.dly.toNat ≤ m)).length) →
    ∃ k ≤ 1691 + (s.tick.filter (fun m => m < s.dly.toNat)).length, ∃ t, steps k s = .next t ∧
      t.ph = .idle ∧ (t.res = .ok ∨ t.res = .ioError)

/-- A sequence of `n` messages has 276n + 4 bytes, and 5n + 1 gaps, one fewer without the gap after the init byte
(R151). -/
def Obligations.SeqHasTheCountedBytesAndGaps : Prop :=
  ∀ (cfg : Config) (d : BitVec 16) (buf : Nat → List Byte) (n : Nat), (∀ i < n, (buf i).length = 256) →
    let q := seqEvents cfg d buf n
    (q.filter (fun e => match e with | .tx _ => true | .gap _ => false)).length = 276 * n + 4 ∧
    (q.filter (fun e => match e with | .tx _ => false | .gap _ => true)).length =
      (if cfg.delayAfterInit then 5 * n + 1 else 5 * n)

/-- The constant type marker of the other variant changes byte 2 to 0x06 and lowers the checksum of message `i` by
`i`, modulo 256, and changes no other byte (R158). -/
def Obligations.ConstantMarkerChangesMarkerAndChecksum : Prop :=
  ∀ (cfg : Config) (B : List Byte) (i : Nat) (c : BitVec 2), B.length = 256 → i < cfg.maxMessages →
    let P := pktBytes { cfg with typeMarkerPerSlot := true } B i c
    let Q := pktBytes { cfg with typeMarkerPerSlot := false } B i c
    Q[2]? = some 0x06 ∧
    Q[68]? = P[68]?.map (fun b => b - BitVec.ofNat 8 i) ∧
    ∀ k, k ≠ 2 → k ≠ 68 → Q[k]? = P[k]?

/-- `tx_valid` is 1 exactly in INIT, PKT and TERM, and `tx_data` is then the byte the phase writes: 0x00, byte BI of the
packet at the position (CSUM at 68), byte BI of Term(CNT); it is the one byte an `ok` answer delivers. In the other
phases no byte is presented and none is delivered (R28, R31, R33). That the checksum is also CSUM under the invariant:
log 26. -/
def Obligations.PresentedByteIsTheOneWritten : Prop :=
  ∀ s : State, Inv s →
    (s.txValid = true ↔ s.ph = .init ∨ s.ph = .pkt ∨ s.ph = .term) ∧
    (s.txValid = false → s.txData = none ∧
      ∀ t, NoResetNow s → step s = .next t → ∀ b, .tx b ∉ t.trace.drop s.trace.length) ∧
    (s.ph = .init → s.txData = some 0x00) ∧
    (s.ph = .pkt → ∃ b, s.txData = some b ∧ (positionBytes s)[s.bi.toNat]? = some b ∧
      (s.bi.toNat = 68 → b = s.csum)) ∧
    (s.ph = .term → ∃ b, s.txData = some b ∧ (termBytes s.cnt.toNat)[s.bi.toNat]? = some b) ∧
    ∀ b r, s.txData = some b → NoResetNow s → s.sink = .ok :: r →
      ∃ t, step s = .next t ∧ t.sink = r ∧
        (t.trace = s.trace ++ [.tx b] ∨ t.trace = s.trace ++ [.tx b, .gap s.dly])
end

