-- ==== Sys2Proof/Laws/State.lean ====
section
/-! SUPPORT. One lemma per field per named update of State, so that no proof unfolds a record update. -/

namespace Sys2Proof.Machine

open Sys2Proof


/-! ### State.deliver -/

@[simp] theorem State.deliver_cfg (s : State) (b : Byte) : (s.deliver b).cfg = s.cfg := rfl
@[simp] theorem State.deliver_mb (s : State) (b : Byte) : (s.deliver b).mb = s.mb := rfl
@[simp] theorem State.deliver_cnt (s : State) (b : Byte) : (s.deliver b).cnt = s.cnt := rfl
@[simp] theorem State.deliver_dly (s : State) (b : Byte) : (s.deliver b).dly = s.dly := rfl
@[simp] theorem State.deliver_verr (s : State) (b : Byte) : (s.deliver b).verr = s.verr := rfl
@[simp] theorem State.deliver_res (s : State) (b : Byte) : (s.deliver b).res = s.res := rfl
@[simp] theorem State.deliver_ph (s : State) (b : Byte) : (s.deliver b).ph = s.ph := rfl
@[simp] theorem State.deliver_mi (s : State) (b : Byte) : (s.deliver b).mi = s.mi := rfl
@[simp] theorem State.deliver_ci (s : State) (b : Byte) : (s.deliver b).ci = s.ci := rfl
@[simp] theorem State.deliver_bi (s : State) (b : Byte) : (s.deliver b).bi = s.bi := rfl
@[simp] theorem State.deliver_csum (s : State) (b : Byte) : (s.deliver b).csum = s.csum := rfl
@[simp] theorem State.deliver_rx (s : State) (b : Byte) : (s.deliver b).rx = s.rx := rfl
@[simp] theorem State.deliver_cmd (s : State) (b : Byte) : (s.deliver b).cmd = s.cmd := rfl
@[simp] theorem State.deliver_sink (s : State) (b : Byte) : (s.deliver b).sink = s.sink := rfl
@[simp] theorem State.deliver_tick (s : State) (b : Byte) : (s.deliver b).tick = s.tick := rfl
@[simp] theorem State.deliver_rst (s : State) (b : Byte) : (s.deliver b).rst = s.rst := rfl
@[simp] theorem State.deliver_trace (s : State) (b : Byte) : (s.deliver b).trace = s.trace ++ [.tx b] := rfl
@[simp] theorem State.deliver_free (s : State) (b : Byte) : (s.deliver b).free = s.free := rfl

/-! ### State.enterGap -/

@[simp] theorem State.enterGap_cfg (p : Phase) (s : State) : (s.enterGap p).cfg = s.cfg := rfl
@[simp] theorem State.enterGap_mb (p : Phase) (s : State) : (s.enterGap p).mb = s.mb := rfl
@[simp] theorem State.enterGap_cnt (p : Phase) (s : State) : (s.enterGap p).cnt = s.cnt := rfl
@[simp] theorem State.enterGap_dly (p : Phase) (s : State) : (s.enterGap p).dly = s.dly := rfl
@[simp] theorem State.enterGap_verr (p : Phase) (s : State) : (s.enterGap p).verr = s.verr := rfl
@[simp] theorem State.enterGap_res (p : Phase) (s : State) : (s.enterGap p).res = s.res := rfl
@[simp] theorem State.enterGap_ph (p : Phase) (s : State) : (s.enterGap p).ph = p := rfl
@[simp] theorem State.enterGap_mi (p : Phase) (s : State) : (s.enterGap p).mi = s.mi := rfl
@[simp] theorem State.enterGap_ci (p : Phase) (s : State) : (s.enterGap p).ci = s.ci := rfl
@[simp] theorem State.enterGap_bi (p : Phase) (s : State) : (s.enterGap p).bi = s.bi := rfl
@[simp] theorem State.enterGap_csum (p : Phase) (s : State) : (s.enterGap p).csum = s.csum := rfl
@[simp] theorem State.enterGap_rx (p : Phase) (s : State) : (s.enterGap p).rx = s.rx := rfl
@[simp] theorem State.enterGap_cmd (p : Phase) (s : State) : (s.enterGap p).cmd = s.cmd := rfl
@[simp] theorem State.enterGap_sink (p : Phase) (s : State) : (s.enterGap p).sink = s.sink := rfl
@[simp] theorem State.enterGap_tick (p : Phase) (s : State) : (s.enterGap p).tick = s.tick := rfl
@[simp] theorem State.enterGap_rst (p : Phase) (s : State) : (s.enterGap p).rst = s.rst := rfl
@[simp] theorem State.enterGap_trace (p : Phase) (s : State) : (s.enterGap p).trace = s.trace ++ [.gap s.dly] := rfl
@[simp] theorem State.enterGap_free (p : Phase) (s : State) : (s.enterGap p).free = s.free := rfl

/-! ### State.startPacket -/

@[simp] theorem State.startPacket_cfg (m : BitVec 3) (c : BitVec 2) (s : State) : (s.startPacket m c).cfg = s.cfg := rfl
@[simp] theorem State.startPacket_mb (m : BitVec 3) (c : BitVec 2) (s : State) : (s.startPacket m c).mb = s.mb := rfl
@[simp] theorem State.startPacket_cnt (m : BitVec 3) (c : BitVec 2) (s : State) : (s.startPacket m c).cnt = s.cnt := rfl
@[simp] theorem State.startPacket_dly (m : BitVec 3) (c : BitVec 2) (s : State) : (s.startPacket m c).dly = s.dly := rfl
@[simp] theorem State.startPacket_verr (m : BitVec 3) (c : BitVec 2) (s : State) : (s.startPacket m c).verr = s.verr := rfl
@[simp] theorem State.startPacket_res (m : BitVec 3) (c : BitVec 2) (s : State) : (s.startPacket m c).res = s.res := rfl
@[simp] theorem State.startPacket_ph (m : BitVec 3) (c : BitVec 2) (s : State) : (s.startPacket m c).ph = .pkt := rfl
@[simp] theorem State.startPacket_mi (m : BitVec 3) (c : BitVec 2) (s : State) : (s.startPacket m c).mi = m := rfl
@[simp] theorem State.startPacket_ci (m : BitVec 3) (c : BitVec 2) (s : State) : (s.startPacket m c).ci = c := rfl
@[simp] theorem State.startPacket_bi (m : BitVec 3) (c : BitVec 2) (s : State) : (s.startPacket m c).bi = 0 := rfl
@[simp] theorem State.startPacket_csum (m : BitVec 3) (c : BitVec 2) (s : State) : (s.startPacket m c).csum = s.csum := rfl
@[simp] theorem State.startPacket_rx (m : BitVec 3) (c : BitVec 2) (s : State) : (s.startPacket m c).rx = s.rx := rfl
@[simp] theorem State.startPacket_cmd (m : BitVec 3) (c : BitVec 2) (s : State) : (s.startPacket m c).cmd = s.cmd := rfl
@[simp] theorem State.startPacket_sink (m : BitVec 3) (c : BitVec 2) (s : State) : (s.startPacket m c).sink = s.sink := rfl
@[simp] theorem State.startPacket_tick (m : BitVec 3) (c : BitVec 2) (s : State) : (s.startPacket m c).tick = s.tick := rfl
@[simp] theorem State.startPacket_rst (m : BitVec 3) (c : BitVec 2) (s : State) : (s.startPacket m c).rst = s.rst := rfl
@[simp] theorem State.startPacket_trace (m : BitVec 3) (c : BitVec 2) (s : State) : (s.startPacket m c).trace = s.trace := rfl
@[simp] theorem State.startPacket_free (m : BitVec 3) (c : BitVec 2) (s : State) : (s.startPacket m c).free = s.free := rfl

/-! ### State.enterTerm -/

@[simp] theorem State.enterTerm_cfg (s : State) : s.enterTerm.cfg = s.cfg := rfl
@[simp] theorem State.enterTerm_mb (s : State) : s.enterTerm.mb = s.mb := rfl
@[simp] theorem State.enterTerm_cnt (s : State) : s.enterTerm.cnt = s.cnt := rfl
@[simp] theorem State.enterTerm_dly (s : State) : s.enterTerm.dly = s.dly := rfl
@[simp] theorem State.enterTerm_verr (s : State) : s.enterTerm.verr = s.verr := rfl
@[simp] theorem State.enterTerm_res (s : State) : s.enterTerm.res = s.res := rfl
@[simp] theorem State.enterTerm_ph (s : State) : s.enterTerm.ph = .term := rfl
@[simp] theorem State.enterTerm_mi (s : State) : s.enterTerm.mi = s.mi := rfl
@[simp] theorem State.enterTerm_ci (s : State) : s.enterTerm.ci = s.ci := rfl
@[simp] theorem State.enterTerm_bi (s : State) : s.enterTerm.bi = 0 := rfl
@[simp] theorem State.enterTerm_csum (s : State) : s.enterTerm.csum = s.csum := rfl
@[simp] theorem State.enterTerm_rx (s : State) : s.enterTerm.rx = s.rx := rfl
@[simp] theorem State.enterTerm_cmd (s : State) : s.enterTerm.cmd = s.cmd := rfl
@[simp] theorem State.enterTerm_sink (s : State) : s.enterTerm.sink = s.sink := rfl
@[simp] theorem State.enterTerm_tick (s : State) : s.enterTerm.tick = s.tick := rfl
@[simp] theorem State.enterTerm_rst (s : State) : s.enterTerm.rst = s.rst := rfl
@[simp] theorem State.enterTerm_trace (s : State) : s.enterTerm.trace = s.trace := rfl
@[simp] theorem State.enterTerm_free (s : State) : s.enterTerm.free = s.free := rfl

/-! ### State.toIdle -/

@[simp] theorem State.toIdle_cfg (s : State) : s.toIdle.cfg = s.cfg := rfl
@[simp] theorem State.toIdle_mb (s : State) : s.toIdle.mb = s.mb := rfl
@[simp] theorem State.toIdle_cnt (s : State) : s.toIdle.cnt = s.cnt := rfl
@[simp] theorem State.toIdle_dly (s : State) : s.toIdle.dly = s.dly := rfl
@[simp] theorem State.toIdle_verr (s : State) : s.toIdle.verr = s.verr := rfl
@[simp] theorem State.toIdle_res (s : State) : s.toIdle.res = s.res := rfl
@[simp] theorem State.toIdle_ph (s : State) : s.toIdle.ph = .idle := rfl
@[simp] theorem State.toIdle_mi (s : State) : s.toIdle.mi = Config.freeMI s.free := rfl
@[simp] theorem State.toIdle_ci (s : State) : s.toIdle.ci = Config.freeCI s.free := rfl
@[simp] theorem State.toIdle_bi (s : State) : s.toIdle.bi = Config.freeBI s.free := rfl
@[simp] theorem State.toIdle_csum (s : State) : s.toIdle.csum = Config.freeCSUM s.free := rfl
@[simp] theorem State.toIdle_rx (s : State) : s.toIdle.rx = s.rx := rfl
@[simp] theorem State.toIdle_cmd (s : State) : s.toIdle.cmd = s.cmd := rfl
@[simp] theorem State.toIdle_sink (s : State) : s.toIdle.sink = s.sink := rfl
@[simp] theorem State.toIdle_tick (s : State) : s.toIdle.tick = s.tick := rfl
@[simp] theorem State.toIdle_rst (s : State) : s.toIdle.rst = s.rst := rfl
@[simp] theorem State.toIdle_trace (s : State) : s.toIdle.trace = s.trace := rfl
@[simp] theorem State.toIdle_free (s : State) : s.toIdle.free = s.free + 1 := rfl

/-! ### raiseIoError -/

@[simp] theorem raiseIoError_cfg (s : State) : (raiseIoError s).cfg = s.cfg := rfl
@[simp] theorem raiseIoError_mb (s : State) : (raiseIoError s).mb = s.mb := rfl
@[simp] theorem raiseIoError_cnt (s : State) : (raiseIoError s).cnt = s.cnt := rfl
@[simp] theorem raiseIoError_dly (s : State) : (raiseIoError s).dly = s.dly := rfl
@[simp] theorem raiseIoError_verr (s : State) : (raiseIoError s).verr = s.verr := rfl
@[simp] theorem raiseIoError_res (s : State) : (raiseIoError s).res = .ioError := rfl
@[simp] theorem raiseIoError_ph (s : State) : (raiseIoError s).ph = .idle := rfl
@[simp] theorem raiseIoError_mi (s : State) : (raiseIoError s).mi = Config.freeMI s.free := rfl
@[simp] theorem raiseIoError_ci (s : State) : (raiseIoError s).ci = Config.freeCI s.free := rfl
@[simp] theorem raiseIoError_bi (s : State) : (raiseIoError s).bi = Config.freeBI s.free := rfl
@[simp] theorem raiseIoError_csum (s : State) : (raiseIoError s).csum = Config.freeCSUM s.free := rfl
@[simp] theorem raiseIoError_rx (s : State) : (raiseIoError s).rx = s.rx := rfl
@[simp] theorem raiseIoError_cmd (s : State) : (raiseIoError s).cmd = s.cmd := rfl
@[simp] theorem raiseIoError_sink (s : State) : (raiseIoError s).sink = s.sink := rfl
@[simp] theorem raiseIoError_tick (s : State) : (raiseIoError s).tick = s.tick := rfl
@[simp] theorem raiseIoError_rst (s : State) : (raiseIoError s).rst = s.rst := rfl
@[simp] theorem raiseIoError_trace (s : State) : (raiseIoError s).trace = s.trace := rfl
@[simp] theorem raiseIoError_free (s : State) : (raiseIoError s).free = s.free + 1 := rfl

/-! ### finishRun -/

@[simp] theorem finishRun_cfg (s : State) : (finishRun s).cfg = s.cfg := rfl
@[simp] theorem finishRun_mb (s : State) : (finishRun s).mb = s.mb := rfl
@[simp] theorem finishRun_cnt (s : State) : (finishRun s).cnt = s.cnt := rfl
@[simp] theorem finishRun_dly (s : State) : (finishRun s).dly = s.dly := rfl
@[simp] theorem finishRun_verr (s : State) : (finishRun s).verr = s.verr := rfl
@[simp] theorem finishRun_res (s : State) : (finishRun s).res = .ok := rfl
@[simp] theorem finishRun_ph (s : State) : (finishRun s).ph = .idle := rfl
@[simp] theorem finishRun_mi (s : State) : (finishRun s).mi = Config.freeMI s.free := rfl
@[simp] theorem finishRun_ci (s : State) : (finishRun s).ci = Config.freeCI s.free := rfl
@[simp] theorem finishRun_bi (s : State) : (finishRun s).bi = Config.freeBI s.free := rfl
@[simp] theorem finishRun_csum (s : State) : (finishRun s).csum = Config.freeCSUM s.free := rfl
@[simp] theorem finishRun_rx (s : State) : (finishRun s).rx = s.rx := rfl
@[simp] theorem finishRun_cmd (s : State) : (finishRun s).cmd = s.cmd := rfl
@[simp] theorem finishRun_sink (s : State) : (finishRun s).sink = s.sink := rfl
@[simp] theorem finishRun_tick (s : State) : (finishRun s).tick = s.tick := rfl
@[simp] theorem finishRun_rst (s : State) : (finishRun s).rst = s.rst := rfl
@[simp] theorem finishRun_trace (s : State) : (finishRun s).trace = s.trace := rfl
@[simp] theorem finishRun_free (s : State) : (finishRun s).free = s.free + 1 := rfl

/-! ### leaveErrorState -/

@[simp] theorem leaveErrorState_cfg (s : State) : (leaveErrorState s).cfg = s.cfg := rfl
@[simp] theorem leaveErrorState_mb (s : State) : (leaveErrorState s).mb = s.mb := rfl
@[simp] theorem leaveErrorState_cnt (s : State) : (leaveErrorState s).cnt = 0 := rfl
@[simp] theorem leaveErrorState_dly (s : State) : (leaveErrorState s).dly = s.dly := rfl
@[simp] theorem leaveErrorState_verr (s : State) : (leaveErrorState s).verr = .none := rfl
@[simp] theorem leaveErrorState_res (s : State) : (leaveErrorState s).res = .none := rfl
@[simp] theorem leaveErrorState_ph (s : State) : (leaveErrorState s).ph = s.ph := rfl
@[simp] theorem leaveErrorState_mi (s : State) : (leaveErrorState s).mi = s.mi := rfl
@[simp] theorem leaveErrorState_ci (s : State) : (leaveErrorState s).ci = s.ci := rfl
@[simp] theorem leaveErrorState_bi (s : State) : (leaveErrorState s).bi = s.bi := rfl
@[simp] theorem leaveErrorState_csum (s : State) : (leaveErrorState s).csum = s.csum := rfl
@[simp] theorem leaveErrorState_rx (s : State) : (leaveErrorState s).rx = s.rx := rfl
@[simp] theorem leaveErrorState_cmd (s : State) : (leaveErrorState s).cmd = s.cmd := rfl
@[simp] theorem leaveErrorState_sink (s : State) : (leaveErrorState s).sink = s.sink := rfl
@[simp] theorem leaveErrorState_tick (s : State) : (leaveErrorState s).tick = s.tick := rfl
@[simp] theorem leaveErrorState_rst (s : State) : (leaveErrorState s).rst = s.rst := rfl
@[simp] theorem leaveErrorState_trace (s : State) : (leaveErrorState s).trace = s.trace := rfl
@[simp] theorem leaveErrorState_free (s : State) : (leaveErrorState s).free = s.free := rfl

/-! ### resetBlock -/

@[simp] theorem resetBlock_cfg (d : Bool) (o : Option Byte) (s : State) : (resetBlock d o s).cfg = s.cfg := rfl
@[simp] theorem resetBlock_mb (d : Bool) (o : Option Byte) (s : State) : (resetBlock d o s).mb = [] := rfl
@[simp] theorem resetBlock_cnt (d : Bool) (o : Option Byte) (s : State) : (resetBlock d o s).cnt = 0 := rfl
@[simp] theorem resetBlock_dly (d : Bool) (o : Option Byte) (s : State) : (resetBlock d o s).dly = 200 := rfl
@[simp] theorem resetBlock_verr (d : Bool) (o : Option Byte) (s : State) : (resetBlock d o s).verr = .none := rfl
@[simp] theorem resetBlock_res (d : Bool) (o : Option Byte) (s : State) : (resetBlock d o s).res = .none := rfl
@[simp] theorem resetBlock_ph (d : Bool) (o : Option Byte) (s : State) : (resetBlock d o s).ph = .idle := rfl
@[simp] theorem resetBlock_mi (d : Bool) (o : Option Byte) (s : State) : (resetBlock d o s).mi = Config.freeMI s.free := rfl
@[simp] theorem resetBlock_ci (d : Bool) (o : Option Byte) (s : State) : (resetBlock d o s).ci = Config.freeCI s.free := rfl
@[simp] theorem resetBlock_bi (d : Bool) (o : Option Byte) (s : State) : (resetBlock d o s).bi = Config.freeBI s.free := rfl
@[simp] theorem resetBlock_csum (d : Bool) (o : Option Byte) (s : State) : (resetBlock d o s).csum = Config.freeCSUM s.free := rfl
@[simp] theorem resetBlock_rx (d : Bool) (o : Option Byte) (s : State) : (resetBlock d o s).rx = [] := rfl
@[simp] theorem resetBlock_cmd (d : Bool) (o : Option Byte) (s : State) : (resetBlock d o s).cmd = s.cmd := rfl
@[simp] theorem resetBlock_sink (d : Bool) (o : Option Byte) (s : State) : (resetBlock d o s).sink = s.sink := rfl
@[simp] theorem resetBlock_tick (d : Bool) (o : Option Byte) (s : State) : (resetBlock d o s).tick = s.tick := rfl
@[simp] theorem resetBlock_rst (d : Bool) (o : Option Byte) (s : State) : (resetBlock d o s).rst = s.rst := rfl
@[simp] theorem resetBlock_trace (d : Bool) (o : Option Byte) (s : State) : (resetBlock d o s).trace = s.trace ++ inFlight d o := rfl
@[simp] theorem resetBlock_free (d : Bool) (o : Option Byte) (s : State) : (resetBlock d o s).free = s.free + 1 := rfl

/-! ### raiseValidation -/

@[simp] theorem raiseValidation_verr (code : Verr) (s : State) :
    (raiseValidation code s).verr = if s.verr = .none then code else s.verr := by
  unfold raiseValidation; split <;> rfl
@[simp] theorem raiseValidation_cfg (code : Verr) (s : State) : (raiseValidation code s).cfg = s.cfg := by
  unfold raiseValidation; split <;> rfl
@[simp] theorem raiseValidation_mb (code : Verr) (s : State) : (raiseValidation code s).mb = s.mb := by
  unfold raiseValidation; split <;> rfl
@[simp] theorem raiseValidation_cnt (code : Verr) (s : State) : (raiseValidation code s).cnt = s.cnt := by
  unfold raiseValidation; split <;> rfl
@[simp] theorem raiseValidation_dly (code : Verr) (s : State) : (raiseValidation code s).dly = s.dly := by
  unfold raiseValidation; split <;> rfl
@[simp] theorem raiseValidation_res (code : Verr) (s : State) : (raiseValidation code s).res = s.res := by
  unfold raiseValidation; split <;> rfl
@[simp] theorem raiseValidation_ph (code : Verr) (s : State) : (raiseValidation code s).ph = s.ph := by
  unfold raiseValidation; split <;> rfl
@[simp] theorem raiseValidation_mi (code : Verr) (s : State) : (raiseValidation code s).mi = s.mi := by
  unfold raiseValidation; split <;> rfl
@[simp] theorem raiseValidation_ci (code : Verr) (s : State) : (raiseValidation code s).ci = s.ci := by
  unfold raiseValidation; split <;> rfl
@[simp] theorem raiseValidation_bi (code : Verr) (s : State) : (raiseValidation code s).bi = s.bi := by
  unfold raiseValidation; split <;> rfl
@[simp] theorem raiseValidation_csum (code : Verr) (s : State) : (raiseValidation code s).csum = s.csum := by
  unfold raiseValidation; split <;> rfl
@[simp] theorem raiseValidation_rx (code : Verr) (s : State) : (raiseValidation code s).rx = s.rx := by
  unfold raiseValidation; split <;> rfl
@[simp] theorem raiseValidation_cmd (code : Verr) (s : State) : (raiseValidation code s).cmd = s.cmd := by
  unfold raiseValidation; split <;> rfl
@[simp] theorem raiseValidation_sink (code : Verr) (s : State) : (raiseValidation code s).sink = s.sink := by
  unfold raiseValidation; split <;> rfl
@[simp] theorem raiseValidation_tick (code : Verr) (s : State) : (raiseValidation code s).tick = s.tick := by
  unfold raiseValidation; split <;> rfl
@[simp] theorem raiseValidation_rst (code : Verr) (s : State) : (raiseValidation code s).rst = s.rst := by
  unfold raiseValidation; split <;> rfl
@[simp] theorem raiseValidation_trace (code : Verr) (s : State) : (raiseValidation code s).trace = s.trace := by
  unfold raiseValidation; split <;> rfl
@[simp] theorem raiseValidation_free (code : Verr) (s : State) : (raiseValidation code s).free = s.free := by
  unfold raiseValidation; split <;> rfl

end Sys2Proof.Machine
end

