-- ==== Sys2Proof/Laws/Memory.lean ====
section
/-! SUPPORT. The laws of the message store: reading after writing, and that writing keeps the canonical form. -/

namespace Sys2Proof.Machine

open Sys2Proof

/-! ### Reading one byte -/

@[simp] theorem Memory.read_nil (a : Nat) : Memory.read [] a = none := rfl

theorem Memory.read_append (m n : Memory) (a : Nat) :
    Memory.read (m ++ n) a = (Memory.read m a).or (Memory.read n a) := by
  induction m with
  | nil => simp
  | cons x m ih => obtain ⟨k, b⟩ := x; simp only [List.cons_append, Memory.read]; split <;> simp [ih]

theorem Memory.read_filter (m : Memory) (p : Nat → Bool) (a : Nat) :
    Memory.read (m.filter (fun x => p x.1)) a = if p a then Memory.read m a else none := by
  induction m with
  | nil => simp
  | cons x m ih =>
    obtain ⟨k, b⟩ := x
    by_cases hk : k = a
    · subst hk; by_cases hp : p k <;> simp [hp, Memory.read, ih]
    · by_cases hp : p k <;> simp [hp, Memory.read, ih, hk]

theorem read_cellsAt (l : List Byte) (a x : Nat) :
    Memory.read (cellsAt a l) x = if a ≤ x then l[x - a]? else none := by
  induction l generalizing a with
  | nil => simp [cellsAt]
  | cons b l ih =>
    simp only [cellsAt, Memory.read, ih]
    rcases Nat.lt_trichotomy a x with h | h | h
    · have h1 : x - a = (x - (a + 1)) + 1 := by omega
      simp [Nat.ne_of_lt h, Nat.le_of_lt h, Nat.succ_le_of_lt h, h1]
    · subst h; simp
    · simp [Nat.ne_of_gt h, Nat.not_le_of_lt h, show ¬ a + 1 ≤ x by omega]

/-- A read after a block write gives the byte written inside the block and the old byte outside it. -/
theorem Memory.read_writeBlock (m : Memory) (a x : Nat) (l : List Byte) :
    Memory.read (m.writeBlock a l) x = if a ≤ x ∧ x < a + l.length then l[x - a]? else Memory.read m x := by
  have hlo := Memory.read_filter m (fun k => decide (k < a)) x
  have hhi := Memory.read_filter m (fun k => decide (a + l.length ≤ k)) x
  simp only [Memory.writeBlock, Memory.read_append, read_cellsAt]
  rw [hlo, hhi]
  by_cases h1 : a ≤ x
  · by_cases h2 : x < a + l.length
    · have : x - a < l.length := by omega
      simp [h1, h2, Nat.not_lt_of_le h1, List.getElem?_eq_getElem this]
    · have : l.length ≤ x - a := by omega
      simp [h1, h2, Nat.not_lt_of_le h1, Nat.le_of_not_lt h2, List.getElem?_eq_none this]
  · simp [h1, Nat.lt_of_not_le h1, show ¬ a + l.length ≤ x by omega]

/-! ### Canonical form -/

theorem mem_cellsAt (l : List Byte) (a : Nat) (x : Host.Cell) (h : x ∈ cellsAt a l) :
    a ≤ x.1 ∧ x.1 < a + l.length := by
  induction l generalizing a with
  | nil => simp [cellsAt] at h
  | cons b l ih =>
    rcases List.mem_cons.1 h with h | h
    · subst h; simp
    · have := ih _ h; simp only [List.length_cons]; omega

theorem wf_cellsAt (l : List Byte) (a : Nat) : Memory.wf (cellsAt a l) := by
  induction l generalizing a with
  | nil => exact List.Pairwise.nil
  | cons b l ih => exact List.Pairwise.cons (fun x hx => by have := mem_cellsAt l _ x hx; simp; omega) (ih _)

/-- Writing a block keeps the canonical form. -/
theorem Memory.wf_writeBlock (m : Memory) (a : Nat) (l : List Byte) (h : Memory.wf m) :
    Memory.wf (m.writeBlock a l) := by
  refine List.pairwise_append.2 ⟨List.pairwise_append.2 ⟨h.filter _, wf_cellsAt _ _, ?_⟩, h.filter _, ?_⟩
  · intro x hx y hy
    have hx := (List.mem_filter.1 hx).2
    have hy := mem_cellsAt _ _ _ hy
    simp at hx; omega
  · intro x hx y hy
    have hy := (List.mem_filter.1 hy).2
    simp at hy
    rcases List.mem_append.1 hx with hx | hx
    · have hx := (List.mem_filter.1 hx).2; simp at hx; omega
    · have hx := mem_cellsAt _ _ _ hx; omega

/-- A block write adds no address outside the block. -/
theorem Memory.mem_writeBlock (m : Memory) (a : Nat) (l : List Byte) (x : Host.Cell) (h : x ∈ m.writeBlock a l) :
    x ∈ m ∨ (a ≤ x.1 ∧ x.1 < a + l.length) := by
  rcases List.mem_append.1 h with h | h
  · rcases List.mem_append.1 h with h | h
    · exact .inl (List.mem_filter.1 h).1
    · exact .inr (mem_cellsAt _ _ _ h)
  · exact .inl (List.mem_filter.1 h).1

/-! ### Reading a block -/

/-- A block read gives the bytes at its addresses. -/
theorem Memory.readBlock_eq_some (m : Memory) (n a : Nat) (l : List Byte) :
    m.readBlock a n = some l ↔ l.length = n ∧ ∀ j < n, Memory.read m (a + j) = l[j]? := by
  induction n generalizing a l with
  | zero =>
    constructor
    · intro h; simp [Memory.readBlock] at h; subst h; simp
    · rintro ⟨h, -⟩; simp [Memory.readBlock, List.length_eq_zero_iff.1 h]
  | succ n ih =>
    constructor
    · intro h
      simp only [Memory.readBlock] at h
      split at h
      · rename_i b l' hb hl
        cases h
        obtain ⟨h1, h2⟩ := (ih _ _).1 hl
        refine ⟨by simp [h1], ?_⟩
        intro j hj
        cases j with
        | zero => simpa using hb
        | succ j => have := h2 j (by omega); simpa [Nat.add_assoc, Nat.add_comm 1] using this
      · cases h
    · rintro ⟨h1, h2⟩
      cases l with
      | nil => simp at h1
      | cons b l =>
        have hb : Memory.read m a = some b := by simpa using h2 0 (by omega)
        have hl : m.readBlock (a + 1) n = some l := by
          refine (ih _ _).2 ⟨by simpa using h1, fun j hj => ?_⟩
          have := h2 (j + 1) (by omega)
          simpa [Nat.add_assoc, Nat.add_comm 1] using this
        simp [Memory.readBlock, hb, hl]

/-- Reading back the block just written. -/
theorem Memory.readBlock_writeBlock_same (m : Memory) (a : Nat) (l : List Byte) :
    (m.writeBlock a l).readBlock a l.length = some l := by
  refine (Memory.readBlock_eq_some _ _ _ _).2 ⟨rfl, fun j hj => ?_⟩
  simp [Memory.read_writeBlock, hj]

/-- A block read elsewhere does not see the write. -/
theorem Memory.readBlock_writeBlock_other (m : Memory) (a : Nat) (l : List Byte) (c n : Nat)
    (h : c + n ≤ a ∨ a + l.length ≤ c) : (m.writeBlock a l).readBlock c n = m.readBlock c n := by
  induction n generalizing c with
  | zero => rfl
  | succ n ih =>
    have hr : Memory.read (m.writeBlock a l) c = Memory.read m c := by
      rw [Memory.read_writeBlock, if_neg]; omega
    simp only [Memory.readBlock, hr, ih (c + 1) (by omega)]

/-- A block read inside a block that reads. -/
theorem Memory.readBlock_inside (m : Memory) (a n k j : Nat) (l : List Byte) (h : m.readBlock a n = some l)
    (hk : k + j ≤ n) : m.readBlock (a + k) j = some ((l.drop k).take j) := by
  obtain ⟨h1, h2⟩ := (Memory.readBlock_eq_some _ _ _ _).1 h
  refine (Memory.readBlock_eq_some _ _ _ _).2 ⟨by simp; omega, fun i hi => ?_⟩
  rw [Nat.add_assoc, h2 (k + i) (by omega)]
  simp [hi, List.getElem?_drop]

/-! ### The store operations -/

/-- What a successful `memRead` says. -/
theorem memRead_ok {s : State} {addr n : Nat} {l : List Byte} (h : memRead s addr n = .ok l) :
    addr + n ≤ s.cfg.storeSize ∧ s.mb.readBlock addr n = some l := by
  unfold memRead at h
  split at h
  · split at h
    · cases h; exact ⟨‹_›, ‹_›⟩
    · cases h
  · cases h

/-- `memRead` of bytes that are there. -/
theorem memRead_eq {s : State} {addr n : Nat} {l : List Byte} (h1 : addr + n ≤ s.cfg.storeSize)
    (h2 : s.mb.readBlock addr n = some l) : memRead s addr n = .ok l := by
  simp [memRead, h1, h2]

/-- `memWrite` inside the store. -/
theorem memWrite_eq {s : State} {addr : Nat} {v : List Byte} (h : addr + v.length ≤ s.cfg.storeSize) :
    memWrite s addr v = .ok { s with mb := s.mb.writeBlock addr v } := by
  simp [memWrite, h]

/-- A store write that succeeds keeps the canonical form. -/
theorem memWrite_wf {s t : State} {addr : Nat} {v : List Byte} (h : memWrite s addr v = .ok t)
    (hw : Memory.wf s.mb) : Memory.wf t.mb := by
  unfold memWrite at h
  split at h
  · cases h; exact Memory.wf_writeBlock _ _ _ hw
  · cases h

/-- The store after reset is in canonical form. -/
theorem reset_store_wf : Memory.wf State.reset.mb := List.Pairwise.nil

end Sys2Proof.Machine
end

