-- ==== Sys2Proof/Laws/Ops.lean ====
section
/-! SUPPORT. What each shared operation and the step can do, said once. -/

namespace Sys2Proof.Machine

open Sys2Proof

/-! ### Errors -/

theorem raiseValidation_of_none {s : State} (code : Verr) (h : s.verr = .none) :
    raiseValidation code s = { s with verr := code } := by
  simp [raiseValidation, h]

theorem raiseValidation_of_error {s : State} (code : Verr) (h : s.verr ≠ .none) : raiseValidation code s = s := by
  simp [raiseValidation, h]

/-! ### The byte write -/

theorem sinkWrite_ok {s : State} {r : List SinkAnswer} (b : Byte) (f : State → State) (h : s.sink = .ok :: r) :
    sinkWrite b f s = .next (f (({ s with sink := r } : State).deliver b)) := by
  simp [sinkWrite, h]

theorem sinkWrite_fail {s : State} {r : List SinkAnswer} (b : Byte) (f : State → State) (h : s.sink = .fail :: r) :
    sinkWrite b f s = .next (raiseIoError { s with sink := r }) := by
  simp [sinkWrite, h]

theorem sinkWrite_wait {s : State} (b : Byte) (f : State → State) (h : s.sink = []) : sinkWrite b f s = .next s := by
  simp [sinkWrite, h]

/-- The three things a byte write can do: wait, deliver, abort. -/
theorem sinkWrite_cases {s t : State} {b : Byte} {f : State → State} (h : sinkWrite b f s = .next t) :
    (s.sink = [] ∧ t = s) ∨
    (∃ r, s.sink = .ok :: r ∧ t = f (({ s with sink := r } : State).deliver b)) ∨
    (∃ r, s.sink = .fail :: r ∧ t = raiseIoError { s with sink := r }) := by
  unfold sinkWrite at h
  split at h <;> cases h
  · exact .inl ⟨‹_›, rfl⟩
  · exact .inr (.inl ⟨_, ‹_›, rfl⟩)
  · exact .inr (.inr ⟨_, ‹_›, rfl⟩)

/-- A byte write never stops the machine. -/
theorem sinkWrite_next (b : Byte) (f : State → State) (s : State) : ∃ t, sinkWrite b f s = .next t := by
  unfold sinkWrite
  split <;> exact ⟨_, rfl⟩

/-! ### Waiting in a gap -/

/-- With DLY = 0 an interval ends at once and takes no reading. -/
theorem awaitElapse_zero {s : State} (h : s.dly = 0) : awaitElapse s = elapse s := by
  simp [awaitElapse, h]

/-- Without a reading an interval of more than 0 milliseconds goes on. -/
theorem awaitElapse_silent {s : State} (h : s.dly ≠ 0) (ht : s.tick = []) : awaitElapse s = s := by
  unfold awaitElapse; rw [if_neg h, ht]

/-- A reading below DLY is taken and the interval goes on. -/
theorem awaitElapse_short {s : State} {m : Nat} {r : List Nat} (ht : s.tick = m :: r) (hm : m < s.dly.toNat) :
    awaitElapse s = { s with tick := r } := by
  have h : s.dly ≠ 0 := by intro e; simp [e] at hm
  unfold awaitElapse; rw [if_neg h, ht]; simp [hm]

/-- A reading of at least DLY is taken and ends an interval of more than 0 milliseconds. -/
theorem awaitElapse_reached {s : State} {m : Nat} {r : List Nat} (h : s.dly ≠ 0) (ht : s.tick = m :: r)
    (hm : s.dly.toNat ≤ m) : awaitElapse s = elapse { s with tick := r } := by
  unfold awaitElapse; rw [if_neg h, ht]; simp [Nat.not_lt_of_le hm]

/-- The three things a step in a gap can do: wait for a reading, wait on, end the interval (at once with DLY = 0, with
a reading of at least DLY otherwise). -/
theorem awaitElapse_cases (s : State) :
    (s.dly ≠ 0 ∧ s.tick = [] ∧ awaitElapse s = s) ∨
    (∃ m r, s.tick = m :: r ∧ m < s.dly.toNat ∧ awaitElapse s = { s with tick := r }) ∨
    (∃ r, (s.dly = 0 ∧ r = s.tick ∨ s.dly ≠ 0 ∧ ∃ m, s.tick = m :: r ∧ s.dly.toNat ≤ m) ∧
      awaitElapse s = elapse { s with tick := r }) := by
  by_cases h0 : s.dly = 0
  · exact .inr (.inr ⟨s.tick, .inl ⟨h0, rfl⟩, awaitElapse_zero h0⟩)
  · cases ht : s.tick with
    | nil => exact .inl ⟨h0, rfl, awaitElapse_silent h0 ht⟩
    | cons m r =>
      by_cases hm : m < s.dly.toNat
      · exact .inr (.inl ⟨m, r, rfl, hm, awaitElapse_short ht hm⟩)
      · have hm := Nat.le_of_not_lt hm
        exact .inr (.inr ⟨r, .inr ⟨h0, m, rfl, hm⟩, awaitElapse_reached h0 ht hm⟩)

/-! ### The step -/

/-- The state of the pins after a step's sample of `rst`. -/
def sampled (s : State) : State := { s with rst := s.rst.tail }

theorem fetch_of_low {s : State} (h : ∀ d r, s.rst ≠ .high d :: r) : fetch s = fetchByPhase (sampled s) := by
  unfold fetch
  split
  · exact absurd ‹_› (h _ _)
  · simp [sampled, *]
  · simp only [sampled, *, List.tail_nil]
    rename_i hr
    cases s
    simp only at hr
    subst hr
    rfl

theorem fetch_of_high {s : State} {d : Bool} {r : List RstSample} (h : s.rst = .high d :: r) :
    fetch s = .other (resetBlock d s.txData { s with rst := r }) := by
  simp [fetch, h]

/-- A step with the reset pin asserted. -/
theorem step_of_high {s : State} {d : Bool} {r : List RstSample} (h : s.rst = .high d :: r) :
    step s = .next (resetBlock d s.txData { s with rst := r }) := by
  simp only [step, fetch_of_high h]

/-- A step of the idle block that takes a whole command. -/
theorem step_command {s : State} {i : Instr} {rest : List Byte} (hr : ∀ d r, s.rst ≠ .high d :: r)
    (hp : s.ph = .idle) (hd : decodeCommand (s.rx ++ s.cmd) = .ok i rest) :
    step s = exec i { sampled s with rx := [], cmd := rest } := by
  have hp' : (sampled s).ph = .idle := hp
  have hd' : decodeCommand ((sampled s).rx ++ (sampled s).cmd) = .ok i rest := hd
  simp only [step, fetch_of_low hr, fetchByPhase, fetchCommand]
  rw [hp', hd']

/-- A step of the idle block that receives a command in part. -/
theorem step_receive {s : State} {why : Reject} (hr : ∀ d r, s.rst ≠ .high d :: r)
    (hp : s.ph = .idle) (hd : decodeCommand (s.rx ++ s.cmd) = .rejected why) :
    step s = .next { sampled s with rx := s.rx ++ s.cmd, cmd := [] } := by
  have hp' : (sampled s).ph = .idle := hp
  have hd' : decodeCommand ((sampled s).rx ++ (sampled s).cmd) = .rejected why := hd
  simp only [step, fetch_of_low hr, fetchByPhase, fetchCommand]
  rw [hp', hd']
  rfl

/-- A step in phase INIT. -/
theorem step_init {s : State} (hr : ∀ d r, s.rst ≠ .high d :: r) (hp : s.ph = .init) :
    step s = exec .init (sampled s) := by
  have hp' : (sampled s).ph = .init := hp
  simp only [step, fetch_of_low hr, fetchByPhase]
  rw [hp']

/-- A step in phase PKT, where the frame can be read. -/
theorem step_pkt {s : State} {i : Instr} (hr : ∀ d r, s.rst ≠ .high d :: r) (hp : s.ph = .pkt)
    (hc : currentPkt (sampled s) = .ok i) : step s = exec i (sampled s) := by
  have hp' : (sampled s).ph = .pkt := hp
  simp only [step, fetch_of_low hr, fetchByPhase]
  rw [hp', hc]
  rfl

/-- A step in phase TERM, where the terminator has a value. -/
theorem step_term {s : State} {i : Instr} (hr : ∀ d r, s.rst ≠ .high d :: r) (hp : s.ph = .term)
    (hc : currentTerm (sampled s) = .ok i) : step s = exec i (sampled s) := by
  have hp' : (sampled s).ph = .term := hp
  simp only [step, fetch_of_low hr, fetchByPhase]
  rw [hp', hc]
  rfl

/-- A step in a gap phase. -/
theorem step_gap {s : State} (hr : ∀ d r, s.rst ≠ .high d :: r)
    (hp : s.ph = .initGap ∨ s.ph = .pktGap ∨ s.ph = .msgGap) : step s = .next (awaitElapse (sampled s)) := by
  have hp' : (sampled s).ph = s.ph := rfl
  simp only [step, fetch_of_low hr, fetchByPhase]
  rcases hp with hp | hp | hp <;> rw [hp', hp]

/-- The cases of a step that answers a next state: a reset; a command taken whole, or received in part; the Write step
of a frame; a step in a gap. -/
theorem step_cases {s t : State} (h : step s = .next t) :
    (∃ d r, s.rst = .high d :: r ∧ t = resetBlock d s.txData { s with rst := r }) ∨
    ((∀ d r, s.rst ≠ .high d :: r) ∧
      ((s.ph = .idle ∧ ∃ i rest, decodeCommand (s.rx ++ s.cmd) = .ok i rest ∧
          exec i { sampled s with rx := [], cmd := rest } = .next t) ∨
       (s.ph = .idle ∧ (∃ why, decodeCommand (s.rx ++ s.cmd) = .rejected why) ∧
          t = { sampled s with rx := s.rx ++ s.cmd, cmd := [] }) ∨
       (s.ph = .init ∧ execInit (sampled s) = .next t) ∨
       (s.ph = .pkt ∧ ∃ i, currentPkt (sampled s) = .ok i ∧ exec i (sampled s) = .next t) ∨
       (s.ph = .term ∧ ∃ i, currentTerm (sampled s) = .ok i ∧ exec i (sampled s) = .next t) ∨
       ((s.ph = .initGap ∨ s.ph = .pktGap ∨ s.ph = .msgGap) ∧ t = awaitElapse (sampled s)))) := by
  by_cases hr : ∃ d r, s.rst = .high d :: r
  · obtain ⟨d, r, hr⟩ := hr
    simp only [step, fetch_of_high hr] at h
    cases h
    exact .inl ⟨d, r, hr, rfl⟩
  · have hr : ∀ d r, s.rst ≠ .high d :: r := fun d r e => hr ⟨d, r, e⟩
    refine .inr ⟨hr, ?_⟩
    simp only [step, fetch_of_low hr, fetchByPhase] at h
    have hph : (sampled s).ph = s.ph := rfl
    cases hp : s.ph <;> simp only [hph, hp] at h
    · simp only [fetchCommand] at h
      change (match (match decodeCommand (s.rx ++ s.cmd) with
        | .ok i rest => Fetched.run i { sampled s with rx := [], cmd := rest }
        | .rejected _ => .other { sampled s with rx := s.rx ++ s.cmd, cmd := [] }) with
        | .run i t => exec i t | .other t => .next t | .stop f => .fault f) = _ at h
      split at h
      · rename_i hd
        split at hd
        · rename_i hdec
          cases hd
          exact .inl ⟨rfl, _, _, hdec, h⟩
        · cases hd
      · rename_i hd
        split at hd
        · cases hd
        · rename_i hdec
          cases hd; cases h
          exact .inr (.inl ⟨rfl, ⟨_, hdec⟩, rfl⟩)
      · cases h
    · exact .inr (.inr (.inl ⟨rfl, h⟩))
    · cases h; exact .inr (.inr (.inr (.inr (.inr ⟨.inl rfl, rfl⟩))))
    · cases hc : currentPkt (sampled s) <;> simp only [hc, fetchFrame] at h
      · cases h
      · exact .inr (.inr (.inr (.inl ⟨rfl, _, rfl, h⟩)))
    · cases h; exact .inr (.inr (.inr (.inr (.inr ⟨.inr (.inl rfl), rfl⟩))))
    · cases h; exact .inr (.inr (.inr (.inr (.inr ⟨.inr (.inr rfl), rfl⟩))))
    · cases hc : currentTerm (sampled s) <;> simp only [hc, fetchFrame] at h
      · cases h
      · exact .inr (.inr (.inr (.inr (.inl ⟨rfl, _, rfl, h⟩))))

end Sys2Proof.Machine
end

