-- ==== Sys2Proof/Laws/Meanings.lean ====
section
/-! SUPPORT. The frames and buffers as lists, and what a meaning can do, said once: a command by cases, a frame and a gap
by what they keep. -/

namespace Sys2Proof.Machine

open Sys2Proof

/-! ### Sums and frames -/

theorem byteSum_append (l m : List Byte) : byteSum (l ++ m) = byteSum l + byteSum m := by
  induction l with
  | nil => simp [byteSum]
  | cons b l ih => simp only [List.cons_append, byteSum, ih]; ac_rfl

/-- The sum of bytes as the exact sum modulo 256. -/
theorem byteSum_toNat (l : List Byte) : (byteSum l).toNat = (l.map BitVec.toNat).sum % 256 := by
  induction l with
  | nil => rfl
  | cons b l ih => simp [byteSum, BitVec.toNat_add, ih]

theorem build_length (text : List Byte) (sp tag : Byte) (k : Nat) (h : text.length ≤ 252) :
    (build text sp tag k).length = 256 := by
  simp [build]; omega

theorem chunkOf_length {B : List Byte} (c : BitVec 2) (h : B.length = 256) : (chunkOf B c).length = 64 := by
  have := c.isLt; simp [chunkOf, h]; omega

theorem encode_pkt_length {tm c p ck} (h : p.length = 64) : (encode (.pkt tm c p ck)).length = 69 := by
  simp [encode, h]

theorem encode_pkt_last {tm c p ck} (h : p.length = 64) : (encode (.pkt tm c p ck))[68]? = some ck := by
  simp [encode, ← h]

/-- The bytes the checksum is over. -/
theorem encode_pkt_summed {tm c p ck} (h : p.length = 64) :
    ((encode (.pkt tm c p ck)).take 68).drop 1 = Config.pktMark :: tm :: chunkOffset c :: p := by
  simp [encode, ← h]

theorem maxMessages_le (c : Config) : c.maxMessages ≤ 6 := by
  unfold Config.maxMessages; split <;> omega

theorem currentPkt_space {s : State} {i : Instr} (h : currentPkt s = .ok i) : i.space = .wire := by
  unfold currentPkt at h; split at h <;> cases h; rfl

theorem currentTerm_space {s : State} {i : Instr} (h : currentTerm s = .ok i) : i.space = .wire := by
  unfold currentTerm at h; split at h <;> cases h; rfl

/-! ### Slots -/

/-- The bytes of a slot that was read whole. -/
theorem slotBytes_of_read {m : Memory} {i : Nat} {l : List Byte} (h : m.readBlock (slotAddr i 0) 256 = some l) :
    slotBytes m i = l := by
  simp [slotBytes, h]

theorem legalBuffer_length {i : Nat} {B : List Byte} (h : legalBuffer i B = true) : B.length = 256 := by
  unfold legalBuffer at h
  split at h
  · simp at h; simp; omega
  · cases h

/-- A slot that holds a message buffer can be read whole. -/
theorem readBlock_of_legal {m : Memory} {i : Nat} (h : legalBuffer i (slotBytes m i) = true) :
    m.readBlock (slotAddr i 0) 256 = some (slotBytes m i) := by
  have hl := legalBuffer_length h
  unfold slotBytes at hl ⊢
  cases hr : m.readBlock (slotAddr i 0) Config.bufSize with
  | none => simp [hr] at hl
  | some l => simp

/-! ### Commands -/

/-- What storing a message changes. -/
theorem storeMessage_cases {B : List Byte} {s t : State} (h : storeMessage B s = .next t) :
    ∃ m, t = { s with mb := m, cnt := s.cnt + 1 } := by
  unfold storeMessage at h
  split at h
  · rename_i u hu
    unfold memWrite at hu; split at hu <;> cases hu
    cases h; exact ⟨_, rfl⟩
  · cases h

/-- The things a command can do: nothing; CLEAR's effect; a new delay; a validation error; a message stored; a run
started. -/
theorem exec_command_cases {i : Instr} {s t : State} (hi : i.space = .command) (h : exec i s = .next t) :
    t = s ∨ (i = .clear ∧ t = leaveErrorState s) ∨
    (s.verr = .none ∧ ∃ ms, i = .setdelay ms ∧ t = { s with dly := ms }) ∨
    (s.verr = .none ∧ ∃ code, t = { s with verr := code }) ∨
    (s.verr = .none ∧ ∃ sp ef text e, i = .append sp ef text ∧ checkAppend s.cfg s.cnt sp ef text = .passed e ∧
      storeMessage (build text sp (effectTag e) (s.cnt.toNat + 1)) s = .next t) ∨
    (s.verr = .none ∧ i = .transmit ∧ s.cnt ≠ 0 ∧ t = { s with res := .none, ph := .init }) := by
  cases i <;> simp only [Instr.space, reduceCtorEq] at hi
  · cases h; exact .inl rfl
  · cases h; exact .inr (.inl ⟨rfl, rfl⟩)
  · simp only [exec, execSetdelay] at h
    split at h <;> cases h
    · exact .inr (.inr (.inl ⟨‹_›, _, rfl, rfl⟩))
    · exact .inl rfl
  · simp only [exec, execAppend] at h
    split at h
    · rename_i hv
      split at h
      · cases h; exact .inr (.inr (.inr (.inl ⟨hv, _, raiseValidation_of_none _ hv⟩)))
      · rename_i hc; exact .inr (.inr (.inr (.inr (.inl ⟨hv, _, _, _, _, rfl, hc, h⟩))))
    · cases h; exact .inl rfl
  · simp only [exec, execTransmit] at h
    split at h
    · rename_i hv
      split at h
      · cases h; exact .inr (.inr (.inr (.inl ⟨hv, _, raiseValidation_of_none _ hv⟩)))
      · cases h; exact .inr (.inr (.inr (.inr (.inr ⟨hv, rfl, ‹_›, rfl⟩))))
    · cases h; exact .inl rfl
  · simp only [exec, execIllegal] at h
    cases h
    by_cases hv : s.verr = .none
    · exact .inr (.inr (.inr (.inl ⟨hv, _, raiseValidation_of_none _ hv⟩)))
    · exact .inl (raiseValidation_of_error _ hv)

/-! ### Frames and gaps -/

/-- What the Write steps of a run and its waiting leave alone. -/
structure Keeps (s t : State) : Prop where
  mb : t.mb = s.mb
  cnt : t.cnt = s.cnt
  dly : t.dly = s.dly
  verr : t.verr = s.verr
  cfg : t.cfg = s.cfg
  rx : t.rx = s.rx
  cmd : t.cmd = s.cmd
  rst : t.rst = s.rst
  res : t.ph ≠ .idle → t.res = s.res

theorem Keeps.trans {s t u : State} (h : Keeps s t) (hr : t.res = s.res) (k : Keeps t u) : Keeps s u :=
  ⟨k.mb.trans h.mb, k.cnt.trans h.cnt, k.dly.trans h.dly, k.verr.trans h.verr, k.cfg.trans h.cfg, k.rx.trans h.rx,
    k.cmd.trans h.cmd, k.rst.trans h.rst, fun hp => (k.res hp).trans hr⟩

/-- A byte write keeps what the move after it keeps. -/
theorem sinkWrite_keeps {s t : State} {b : Byte} {f : State → State} (hf : ∀ u, Keeps u (f u))
    (h : sinkWrite b f s = .next t) : Keeps s t := by
  rcases sinkWrite_cases h with ⟨_, rfl⟩ | ⟨r, _, rfl⟩ | ⟨r, _, rfl⟩
  · constructor <;> simp
  · exact Keeps.trans (t := ({ s with sink := r } : State).deliver b) (by constructor <;> simp) (by simp) (hf _)
  · constructor <;> simp

theorem exec_frame_keeps {i : Instr} {s t : State} (hi : i.space = .wire) (h : exec i s = .next t) : Keeps s t := by
  cases i <;> simp only [Instr.space, reduceCtorEq] at hi
  · refine sinkWrite_keeps ?_ h
    intro u; unfold afterInit; split <;> constructor <;> simp
  · simp only [exec, execPkt] at h
    split at h
    · refine sinkWrite_keeps ?_ h
      intro u; unfold afterPktByte; split <;> constructor <;> simp
    · cases h
  · simp only [exec, execTerm] at h
    split at h
    · refine sinkWrite_keeps ?_ h
      intro u; unfold afterTermByte; split <;> constructor <;> simp
    · cases h

theorem elapse_keeps (s : State) : Keeps s (elapse s) := by
  unfold elapse
  split
  · constructor <;> simp
  · split <;> constructor <;> simp
  · split <;> constructor <;> simp
  all_goals constructor <;> simp

theorem awaitElapse_keeps (s : State) : Keeps s (awaitElapse s) := by
  rcases awaitElapse_cases s with ⟨_, _, h⟩ | ⟨m, r, _, _, h⟩ | ⟨r, _, h⟩ <;> rw [h]
  · constructor <;> simp
  · constructor <;> simp
  · exact Keeps.trans (t := { s with tick := r }) (by constructor <;> simp) rfl (elapse_keeps _)

end Sys2Proof.Machine
end

