-- ==== Sys2Proof/Laws/PerInstr.lean ====
section
/-! SUPPORT. Statements for all instructions, made per instruction: a well-formed instruction is encoded in as many
bytes as the opcode table gives its row (30_encoding.md R70). -/

namespace Sys2Proof.Laws.EncodedLength

open Sys2Proof

/-- A well-formed instruction has as many bytes as its row says. -/
def Statement (i : Instr) : Prop := i.wf → (encode i).length = i.lengthBytes

theorem nop : Statement .nop := fun _ => rfl

theorem clear : Statement .clear := fun _ => rfl

theorem setdelay (ms : BitVec 16) : Statement (.setdelay ms) := fun _ => rfl

theorem append (sp ef : Byte) (text : List Byte) : Statement (.append sp ef text) := by
  intro _; simp [encode, Instr.lengthBytes]; omega

theorem transmit : Statement .transmit := fun _ => rfl

theorem illegal (opcode : Byte) : Statement (.illegal opcode) := fun _ => rfl

theorem init : Statement .init := fun _ => rfl

theorem pkt (tm : Byte) (c : BitVec 2) (payload : List Byte) (ck : Byte) : Statement (.pkt tm c payload ck) := by
  intro h
  have hl : payload.length = 64 := by
    by_contra hne; simp [Instr.wf, Instr.check, hne] at h
  simp [encode, Instr.lengthBytes, hl]

theorem term (mask : BitVec 6) : Statement (.term mask) := fun _ => rfl

end Sys2Proof.Laws.EncodedLength
end

