-- ==== Sys2Proof/Tests/Slice0.lean ====
section
/-! SUPPORT. Tests: ill-formed terms, words written out from the spec, single steps with the results of
95_test_vectors.md, and for every statement with hypotheses a concrete input that meets them. -/

open Sys2Proof Sys2Proof.Machine

namespace Sys2Proof.Tests
set_option maxRecDepth 8192

/-! ### WellFormed: each check refuses its ill-formed term (R74, R77, R79, R83) -/

theorem test_text_of_256_bytes_is_no_append :
    (Instr.append 1 0x41 (List.replicate 256 0x41)).check = some .textNotEncodable := by decide
theorem test_nop_opcode_is_not_illegal : (Instr.illegal 0x04).check = some .opcodeIsDefined := by decide
theorem test_payload_of_63_bytes_refused :
    (Instr.pkt 6 0 (List.replicate 63 0) 0x37).check = some .payloadLength := by decide
theorem test_type_marker_5_refused :
    (Instr.pkt 5 0 (List.replicate 64 0) 0x36).check = some .typeMarkerRange := by decide
theorem test_type_marker_12_refused :
    (Instr.pkt 12 0 (List.replicate 64 0) 0x3D).check = some .typeMarkerRange := by decide
theorem test_wrong_checksum_refused :
    (Instr.pkt 6 1 (List.replicate 64 0) 0x78).check = some .checksumWrong := by decide
theorem test_mask_zero_refused : (Instr.term 0).check = some .maskZero := by decide
theorem test_mask_with_a_hole_refused : (Instr.term 0x05).check = some .maskHole := by decide

/-! ### Decode: words written out from the spec's encodings (95_test_vectors.md) -/

theorem test_decode_nop : decodeCommand [0x00] = .ok .nop [] := by decide
theorem test_decode_clear : decodeCommand [0x01] = .ok .clear [] := by decide
/-- V28: low byte first. -/
theorem test_decode_setdelay : decodeCommand [0x02, 0xE8, 0x03] = .ok (.setdelay 1000) [] := by decide
/-- V1. -/
theorem test_decode_append :
    decodeCommand [0x03, 0x03, 0x42, 0x05, 0x48, 0x65, 0x6C, 0x6C, 0x6F] =
      .ok (.append 3 0x42 [0x48, 0x65, 0x6C, 0x6C, 0x6F]) [] := by decide
theorem test_decode_transmit : decodeCommand [0x04, 0x00] = .ok .transmit [0x00] := by decide
/-- R77: both ends of the illegal range, one byte each. -/
theorem test_decode_illegal :
    decodeCommand [0x05, 0x01] = .ok (.illegal 0x05) [0x01] ∧ decodeCommand [0xFF] = .ok (.illegal 0xFF) [] := by decide
theorem test_decode_init : decodeWire [0x00] = .ok .init [] := by decide
/-- `Pkt(B,0,3)` of V11: an all-zero chunk 3. -/
theorem test_decode_pkt :
    decodeWire ([0x02, 0x31, 0x06, 0xC0] ++ List.replicate 64 0x00 ++ [0xF7]) =
      .ok (.pkt 6 3 (List.replicate 64 0x00) 0xF7) [] := by decide
/-- V16. -/
theorem test_decode_term : decodeWire [0x02, 0x33, 0x3F] = .ok (.term 0x3F) [] := by decide
/-- V35. -/
theorem test_partial_append_is_incomplete : decodeCommand [0x03, 0x01, 0x41] = .rejected .incomplete := by decide
theorem test_wire_rejects_by_name :
    decodeWire [0x01] = .rejected (.unknownStart 0x01) ∧ decodeWire [0x02, 0x32] = .rejected (.unknownKind 0x32) ∧
    decodeWire [0x02, 0x31, 0x06, 0x41] = .rejected (.reservedOffsetBits 0x41) ∧
    decodeWire [0x02, 0x33, 0x40] = .rejected (.reservedMaskBits 0x40) ∧
    decodeWire [0x02, 0x31, 0x06, 0x40, 0x00] = .rejected .incomplete := by decide
/-- The words of the opcode table's rows; 0x00 is the word of both NOP and INIT and is read as NOP (log 14). -/
theorem test_table_words :
    decodeTableWord 8 0x00 = some .nop ∧ decodeTableWord 8 0x01 = some .clear ∧
    decodeTableWord 24 0x03E802 = some (.setdelay 1000) ∧ decodeTableWord 8 0x03 = some (.append 0 0 []) ∧
    decodeTableWord 8 0x04 = some .transmit ∧ decodeTableWord 8 0x7F = some (.illegal 0x7F) := by decide
theorem test_table_words_of_frames :
    decodeTableWord 24 0x070233 = some (.term 0x07) ∧
    decodeTableWord 16 0x0231 = some (.pkt 0 0 (List.replicate 64 0) 0) := by decide

/-! ### Single steps (95_test_vectors.md) -/

/-- The outcome is a next state of which `p` holds. -/
def holdsNext (p : State → Bool) : Result → Bool
  | .next t => p t
  | .fault _ => false
  | .refused _ => false

/-- The reset state with these command bytes presented. -/
def given (bytes : List Byte) : State := { State.reset with cmd := bytes }

theorem test_word_is_fetched :
    holdsNext (fun t => t.dly == 1000 && t.cmd == []) (step (State.reset.withFetchWord 24 0x03E802)) = true := by decide
/-- The first bytes a placed frame delivers. -/
theorem test_frame_word_is_fetched :
    holdsNext (fun t => t.trace == [.tx 0x02]) (step (State.reset.withFetchWord 16 0x0231)) = true ∧
    holdsNext (fun t => t.trace == [.tx 0x02]) (step (State.reset.withFetchWord 24 0x070233)) = true := by decide

/-- V27. -/
theorem test_nop : step (given [0x00]) = .next State.reset := rfl
/-- V29. -/
theorem test_clear :
    holdsNext (fun t => t.cnt == 0 && t.verr == .none && t.res == .none && t.dly == 50)
      (exec .clear { State.reset with cnt := 3, verr := .messageTooLong, res := .ioError, dly := 50 }) = true := by decide
/-- V32. -/
theorem test_setdelay_refused_under_an_error :
    holdsNext (fun t => t.dly == 200 && t.cmd == [])
      (step { given [0x02, 0x05, 0x00] with verr := .messageTooLong }) = true := by decide
/-- V7c: the first nine bytes of MB[0] and its last. -/
theorem test_append_stores :
    holdsNext (fun t => t.cnt == 1 && t.mb.readBlock 0 9 == some [0x35, 0x31, 0x45, 0x01, 0x78, 0, 0, 0, 0]
        && t.mb.read 255 == some 0 && t.mb.read 256 == none)
      (step (given [0x03, 0x05, 0x45, 0x01, 0x78])) = true := by decide
/-- V9b: with a full list the error is TooManyMessages though speed and effect are bad too. -/
theorem test_append_first_failing_check :
    holdsNext (fun t => t.verr == .tooManyMessages && t.cnt == 6 && t.mb == [])
      (step { given [0x03, 0x00, 0x46, 0x01, 0x78] with cnt := 6 }) = true := by decide
/-- V18. -/
theorem test_transmit_without_messages :
    holdsNext (fun t => t.verr == .noMessages && t.trace == [] && t.ph == .idle) (step (given [0x04])) = true := by decide
/-- V31: the first error wins. -/
theorem test_illegal_under_an_error :
    holdsNext (fun t => t.verr == .messageTooLong) (step { given [0xFF] with verr := .messageTooLong }) = true := by decide
/-- V30, and STATUS with VERR = 6. -/
theorem test_illegal :
    holdsNext (fun t => t.status == 0x000C) (step (given [0x7F])) = true := by decide
/-- V34. -/
theorem test_status :
    ({ State.reset with cnt := 2, res := .ok } : State).status = 0x0090 := by decide
/-- V22: the first write fails. -/
theorem test_init_fails :
    holdsNext (fun t => t.trace == [] && t.res == .ioError && t.ph == .idle && t.cnt == 1)
      (step { State.reset with ph := .init, cnt := 1, sink := [.fail] }) = true := by decide
/-- V26: without the delay after the init byte the first packet follows at once. -/
theorem test_init_without_gap :
    holdsNext (fun t => t.trace == [.tx 0x00] && t.ph == .pkt)
      (step { State.reset with
        cfg := { Config.canonical with delayAfterInit := false }, ph := .init, cnt := 1, sink := [.ok] }) = true := by
  decide

/-- The buffer of V1. -/
def helloBuffer : List Byte := build [0x48, 0x65, 0x6C, 0x6C, 0x6F] 3 0x42 1

/-- V11: the checksums of the four packets. -/
theorem test_pkt_checksums :
    [0#2, 1#2, 2#2, 3#2].map (fun c => (pktBytes Config.canonical helloBuffer 0 c)[68]?) =
      [some 0xD6, some 0x77, some 0xB7, some 0xF7] := by decide
/-- R146: byte 2 of the packet of message 1 is 7, and it is added to CSUM. -/
theorem test_pkt_type_marker :
    holdsNext (fun t => t.trace == [.tx 0x07] && t.csum == 0x38 && t.bi == 3)
      (exec (.pkt 7 0 (List.replicate 64 0) 0x38) { State.reset with ph := .pkt, bi := 2, csum := 0x31, sink := [.ok] })
        = true := by decide
/-- V16. -/
theorem test_term_masks :
    [1, 2, 3, 4, 5, 6].map termBytes =
      [[0x02, 0x33, 0x01], [0x02, 0x33, 0x03], [0x02, 0x33, 0x07], [0x02, 0x33, 0x0F], [0x02, 0x33, 0x1F],
        [0x02, 0x33, 0x3F]] := by decide
/-- P1's end: the mask of one message, RES Ok, STATUS 0x0050. -/
theorem test_term_ends_the_run :
    holdsNext (fun t => t.trace == [.tx 0x01] && t.status == 0x0050)
      (step { State.reset with ph := .term, bi := 2, cnt := 1, sink := [.ok] }) = true := by decide
/-- V33, and R211: the byte presented at a reset may have been delivered. -/
theorem test_reset :
    holdsNext (fun t => t.status == 0x0000 && t.dly == 200 && t.trace == [.tx 0x00])
      (step { State.reset with ph := .init, cnt := 1, dly := 7, rst := [.high true] }) = true := by decide

/-- R34: with DLY = 0 an interval ends at once, with no reading and taking none. -/
theorem test_zero_delay_ends_at_once :
    holdsNext (fun t => t.ph == .pkt && t.ci == 1 && t.tick == [])
      (step { State.reset with ph := .pktGap, cnt := 1, ci := 0, dly := 0 }) = true ∧
    holdsNext (fun t => t.ph == .term && t.tick == [5])
      (step { State.reset with ph := .msgGap, cnt := 1, dly := 0, tick := [5] }) = true := by decide

/-! ### Witnesses of the hypotheses: encodings -/

theorem test_witness_well_formed :
    (Instr.append 0 0x46 (List.replicate 255 0xFF)).wf ∧ (Instr.illegal 0x05).wf ∧ (Instr.illegal 0xFF).wf ∧
    (Instr.pkt 11 3 (List.replicate 64 0x00) 0xFC).wf ∧ (Instr.term 0x01).wf ∧ (Instr.term 0x3F).wf := by decide
theorem test_witness_decoded :
    decode .command [0x04, 0x03] = .ok .transmit [0x03] ∧ decode .wire [0x02, 0x33, 0x01] = .ok (.term 0x01) [] ∧
    decodeCommand [0x03, 0x01, 0x41, 0x02, 0x78] = .rejected .incomplete := by decide

/-! ### Witnesses: MessageBuilder -/

theorem test_witness_build :
    ∃ (text : List Byte) (speed tag : Byte) (k : Nat), text.length ≤ 249 ∧ 1 ≤ speed.toNat ∧ speed.toNat ≤ 5 ∧
      0x41 ≤ tag.toNat ∧ tag.toNat ≤ 0x45 ∧ 1 ≤ k ∧ k ≤ 6 ∧ text.length = 249 ∧ k = 6 :=
  ⟨List.replicate 249 0xFF, 5, 0x45, 6, by decide⟩
theorem test_witness_append_stores :
    let s : State := { State.reset with cnt := 5 }
    let text : List Byte := List.replicate 249 0x78
    s.verr = .none ∧ text.length < 250 ∧ s.cnt.toNat < s.cfg.maxMessages ∧ 1 ≤ (5 : Byte).toNat ∧ (5 : Byte).toNat ≤ 5 ∧
      (0x41 ≤ (0x45 : Byte).toNat ∧ (0x45 : Byte).toNat ≤ 0x45) ∧ Memory.wf s.mb := by decide
theorem test_witness_append_reports :
    let text : List Byte := List.replicate 250 0x78
    State.reset.verr = .none ∧ 250 ≤ text.length ∧
    ([] : List Byte).length < 250 ∧ ({ State.reset with cnt := 6 } : State).cnt.toNat = Config.canonical.maxMessages ∧
    State.reset.cnt.toNat ≠ State.reset.cfg.maxMessages ∧ (0 : Byte).toNat < 1 ∧ 5 < (6 : Byte).toNat ∧
    (0x40 : Byte).toNat < 0x41 ∧ 0x45 < (0x46 : Byte).toNat := by decide
theorem test_witness_error_held :
    Instr.transmit.space = .command ∧ Instr.transmit ≠ .clear ∧
    ({ State.reset with verr := .noMessages } : State).verr ≠ .none := by decide
theorem test_witness_illegal : 5 ≤ (0x05 : Byte).toNat ∧ 5 ≤ (0xFF : Byte).toNat := by decide
theorem test_witness_transmit :
    State.reset.verr = .none ∧ State.reset.cnt.toNat = 0 ∧ 1 ≤ ({ State.reset with cnt := 1 } : State).cnt.toNat ∧
    ({ State.reset with verr := .illegalCommand } : State).verr ≠ .none := by decide

/-! ### Witnesses: frames -/

/-- A packet instruction of the table, its checksum right. -/
def zeroPacket : Instr := .pkt 6 0 (List.replicate 64 0x00) 0x37

theorem test_witness_frames :
    let failing (k : BitVec 7) : State := { State.reset with bi := k, sink := [.fail] }
    let silent (k : BitVec 7) : State := { State.reset with bi := k }
    Instr.init.space = .wire ∧ Instr.init.wf ∧ zeroPacket.space = .wire ∧ zeroPacket.wf ∧
    (Instr.term 0x01).space = .wire ∧ (Instr.term 0x01).wf ∧
    (failing 68).bi.toNat < zeroPacket.lengthBytes ∧ (failing 68).sink = .fail :: [] ∧
    (failing 2).bi.toNat < (Instr.term 0x01).lengthBytes ∧ (failing 2).sink = .fail :: [] ∧
    (silent 68).bi.toNat < zeroPacket.lengthBytes ∧ (silent 68).sink = [] := by decide
theorem test_witness_past_the_frame :
    zeroPacket ≠ .init ∧ zeroPacket.lengthBytes ≤ ({ State.reset with bi := 69 } : State).bi.toNat ∧
    (Instr.term 0x01).lengthBytes ≤ ({ State.reset with bi := 3 } : State).bi.toNat := by decide
theorem test_witness_packet_bytes : helloBuffer.length = 256 ∧ 5 < Config.canonical.maxMessages := by decide
theorem test_witness_payload : (List.replicate 64 (0xFF : Byte)).length = 64 := by decide
theorem test_witness_term_count : (1 ≤ 1 ∧ 1 ≤ 6) ∧ (1 ≤ 6 ∧ 6 ≤ 6) := by decide
theorem test_witness_init_write :
    ({ State.reset with sink := [.ok] } : State).sink = .ok :: [] ∧ State.reset.cfg.delayAfterInit = true ∧
    ({ Config.canonical with delayAfterInit := false } : Config).delayAfterInit = false := by decide
theorem test_witness_packet_write :
    let at' (k : BitVec 7) : State := { State.reset with sink := [.ok], bi := k }
    (List.replicate 64 (0x00 : Byte)).length = 64 ∧ (at' 0).sink = .ok :: [] ∧ (at' 0).bi.toNat = 0 ∧
    1 ≤ (at' 1).bi.toNat ∧ (at' 67).bi.toNat ≤ 67 ∧ (encode zeroPacket)[(at' 1).bi.toNat]? = some 0x31 ∧
    (encode zeroPacket)[(at' 67).bi.toNat]? = some 0x00 ∧ (at' 68).bi.toNat = 68 := by decide

theorem test_witness_term_write :
    let at' (k : BitVec 7) : State := { State.reset with sink := [.ok], bi := k }
    (∀ k, (at' k).sink = .ok :: []) ∧ (at' 0).bi.toNat = 0 ∧ (at' 1).bi.toNat = 1 ∧ (at' 2).bi.toNat = 2 :=
  ⟨fun _ => rfl, rfl, rfl, rfl⟩

/-! ### A list of one message, and runs over it -/

/-- The store after one APPEND. -/
def oneStore : Memory := Memory.writeBlock [] 0 helloBuffer

/-- A block that holds one message. -/
def one : State := { State.reset with mb := oneStore, cnt := 1 }

theorem test_one_read : oneStore.readBlock (slotAddr 0 0) 256 = some helloBuffer := by
  have h := Memory.readBlock_writeBlock_same [] 0 helloBuffer
  have hl : helloBuffer.length = 256 := by decide
  rw [hl] at h; exact h

theorem test_one_slot : slotBytes oneStore 0 = helloBuffer := slotBytes_of_read test_one_read

/-- A state over the one message meets the invariant once its position, its flags and its received bytes do. -/
theorem test_one_inv (s : State) (hm : s.mb = oneStore) (hc : s.cnt = 1) (hg : s.cfg = Config.canonical)
    (hr : s.rx = []) (hv : s.verr = .none) (he : s.res = .none) (hp : positionInv s) : Inv s where
  store_wf := by rw [hm]; exact Memory.wf_writeBlock _ _ _ List.Pairwise.nil
  store_bound := by
    intro x hx
    rw [hm] at hx
    have hl : helloBuffer.length = 256 := by decide
    rcases Memory.mem_writeBlock _ _ _ _ hx with h | h
    · cases h
    · rw [hg]; have : Config.canonical.storeSize = 1536 := rfl
      omega
  cnt_le := by rw [hc, hg]; decide
  slots := by
    intro i hi
    rw [hc] at hi
    have : i = 0 := by simpa using hi
    subst this
    rw [hm, test_one_slot]; decide
  rx_open := by rw [hr]; rfl
  running := fun _ => ⟨hv, he, by rw [hc]; decide, hr⟩
  position := hp

/-- The run over the one message is at its init byte. -/
def atInit (sink : List SinkAnswer) : State := { one with ph := .init, sink := sink }
/-- The run is at the first byte of its first packet. -/
def atPacket : State := { one with ph := .pkt }
/-- The run is at the last byte of its terminator, its trace what it has emitted. -/
def atLastByte (sink : List SinkAnswer) : State :=
  { one with ph := .term, bi := 2, sink := sink, trace := emitted { one with ph := .term, bi := 2 } }

theorem test_witness_invariant_idle : Inv one ∧ one.ph = .idle :=
  ⟨test_one_inv one rfl rfl rfl rfl rfl rfl trivial, rfl⟩
theorem test_witness_invariant_busy (sink : List SinkAnswer) : Inv (atInit sink) ∧ (atInit sink).ph ≠ .idle :=
  ⟨test_one_inv _ rfl rfl rfl rfl rfl rfl trivial, by simp [atInit]⟩
theorem test_witness_invariant_last (sink : List SinkAnswer) :
    Inv (atLastByte sink) ∧ (atLastByte sink).ph ≠ .idle :=
  ⟨test_one_inv _ rfl rfl rfl rfl rfl rfl (by simp [positionInv, atLastByte]), by simp [atLastByte]⟩
/-- A packet about to write its checksum. -/
theorem test_witness_invariant_checksum : Inv { one with ph := .pkt, bi := 68, csum := 0xD6 } := by
  refine test_one_inv _ rfl rfl rfl rfl rfl rfl ⟨by decide, by decide +kernel, fun _ => ?_⟩
  have e : positionBytes { one with ph := .pkt, bi := 68, csum := 0xD6 } = pktBytes Config.canonical helloBuffer 0 0 := by
    rw [← test_one_slot]; rfl
  rw [e]; decide

/-! ### Witnesses: the frame built, and steps -/

/-- The two premises of the statement about the frames built. -/
theorem test_witness_current_frames :
    (∃ i, currentPkt atPacket = .ok i) ∧
    currentTerm { State.reset with cnt := 6 } = .ok (.term 0x3F) := by
  refine ⟨⟨pktInstr Config.canonical 0 0 (chunkOf helloBuffer 0), ?_⟩, rfl⟩
  have h := Memory.readBlock_inside oneStore _ 256 0 64 _ test_one_read (by decide)
  have hm : memRead atPacket (slotAddr atPacket.mi.toNat (Config.chunkSize * atPacket.ci.toNat)) Config.chunkSize =
    .ok (chunkOf helloBuffer 0) := memRead_eq (by decide) h
  unfold currentPkt; rw [hm]; rfl
theorem test_witness_command_presented :
    let s : State := { State.reset with rx := [0x02, 0xE8], cmd := [0x03, 0x00], rst := [.low] }
    NoResetNow s ∧ s.ph = .idle ∧ (Instr.setdelay 1000).space = .command ∧ (Instr.setdelay 1000).wf ∧
      s.rx ++ s.cmd = encode (.setdelay 1000) ++ [0x00] :=
  ⟨by simp [NoResetNow], rfl, rfl, rfl, by decide⟩
theorem test_witness_frame_positions :
    let s (p : Phase) : State := { one with ph := p, ci := 3 }
    (∀ p, NoResetNow (s p)) ∧ (s .init).ph = .init ∧ (s .pkt).ph = .pkt ∧
    (∃ payload, (s .pkt).mb.readBlock (256 * (s .pkt).mi.toNat + 64 * (s .pkt).ci.toNat) 64 = some payload) ∧
    (s .pkt).mi.toNat < (s .pkt).cfg.maxMessages ∧ (s .term).ph = .term ∧ 1 ≤ (s .term).cnt.toNat ∧
    (s .term).cnt.toNat ≤ (s .term).cfg.maxMessages := by
  exact ⟨fun p => by simp [NoResetNow, one, State.reset], rfl, rfl,
    ⟨_, Memory.readBlock_inside oneStore (slotAddr 0 0) 256 192 64 _ test_one_read (by decide)⟩,
    by decide, rfl, by decide +kernel, by decide +kernel⟩

/-- A state in a gap phase, with one reading of the timebase. -/
def inGap (p : Phase) (mi : BitVec 3) (ci : BitVec 2) (m : Nat) : State :=
  { State.reset with ph := p, cnt := 2, mi := mi, ci := ci, tick := [m] }

/-- One state for each clause of the statement about the end of an interval, DLY just reached; and DLY = 0 with no
reading. -/
theorem test_witness_elapse :
    (∀ p mi ci, NoResetNow (inGap p mi ci 200) ∧ (inGap p mi ci 200).tick = 200 :: [] ∧ (inGap p mi ci 200).dly ≠ 0 ∧
      (inGap p mi ci 200).dly.toNat ≤ 200 ∧ (inGap p mi ci 200).ph = p) ∧
    (inGap .pktGap 0 2 200).ci.toNat < 3 ∧ (inGap .pktGap 0 3 200).ci.toNat = 3 ∧
    (inGap .msgGap 0 3 200).mi.toNat + 1 < (inGap .msgGap 0 3 200).cnt.toNat ∧
    (inGap .msgGap 1 3 200).mi.toNat + 1 = (inGap .msgGap 1 3 200).cnt.toNat ∧
    (let s : State := { inGap .initGap 0 0 0 with dly := 0, tick := [] }
     NoResetNow s ∧ s.dly = 0 ∧ [] = s.tick ∧ s.ph = .initGap) :=
  ⟨fun p mi ci => ⟨by simp [NoResetNow, inGap, State.reset], rfl, by simp [inGap, State.reset],
      by simp [inGap, State.reset], rfl⟩,
    by decide, by decide, by decide, by decide, by simp [NoResetNow, inGap, State.reset], rfl, rfl, rfl⟩
theorem test_witness_gap_too_short :
    NoResetNow (inGap .msgGap 0 3 199) ∧ (inGap .msgGap 0 3 199).tick = 199 :: [] ∧
    199 < (inGap .msgGap 0 3 199).dly.toNat ∧
    (let s : State := { inGap .initGap 0 0 0 with tick := [] }
     NoResetNow s ∧ s.dly ≠ 0 ∧ s.tick = []) :=
  ⟨by simp [NoResetNow, inGap, State.reset], rfl, by decide, by simp [NoResetNow, inGap, State.reset], by decide, rfl⟩
/-- V35's bytes. -/
theorem test_witness_incomplete :
    NoResetNow (given [0x03, 0x01, 0x41]) ∧ (given [0x03, 0x01, 0x41]).ph = .idle ∧
    ∀ i rest, decodeCommand ((given [0x03, 0x01, 0x41]).rx ++ (given [0x03, 0x01, 0x41]).cmd) ≠ .ok i rest := by
  refine ⟨by simp [NoResetNow, given, State.reset], rfl, fun i rest h => ?_⟩
  cases (show Decoded.rejected .incomplete = .ok i rest from h)
theorem test_witness_busy_step :
    ∃ s t, s.ph ≠ .idle ∧ NoResetNow s ∧ step s = .next t ∧ t.ph ≠ .idle ∧ s.cmd = [0x01] :=
  ⟨{ atInit [.ok] with cmd := [0x01] }, _, by simp [atInit], by simp [NoResetNow, atInit, one, State.reset], rfl,
    by simp [atInit, afterInit, one, State.reset, State.enterGap, State.deliver, Config.canonical], rfl⟩

/-! ### Witnesses: reset -/

theorem test_witness_reset :
    let s : State := { atInit [] with rst := [.high true], cmd := [0x01], rx := [] }
    s.rst = .high true :: [] ∧ s.txData = some 0x00 ∧
    ({ one with rst := [.high false] } : State).txValid = false := by
  exact ⟨rfl, rfl, rfl⟩
theorem test_witness_reset_of_a_partial_command :
    let s : State := { State.reset with rst := [.high false], rx := [0x02, 0xE8], cmd := [0x01] }
    s.rst = .high false :: [] ∧ (∀ e q, ([] : List RstSample) ≠ .high e :: q) ∧ Instr.clear.space = .command ∧
      Instr.clear.wf ∧ s.cmd = encode .clear ++ [] :=
  ⟨rfl, by simp, rfl, rfl, rfl⟩

/-! ### Witnesses: the rules of the whole machine -/

theorem test_witness_store_written :
    holdsNext (fun t => t.mb != []) (step (given [0x03, 0x05, 0x45, 0x01, 0x78])) = true ∧
    holdsNext (fun t => t.mb != one.mb) (step { one with rst := [.high false] }) = true := by decide
theorem test_witness_delay_written :
    (∃ t, step (given [0x02, 0x05, 0x00]) = .next t ∧ t.dly ≠ 200) ∧
    (∃ t, step { State.reset with dly := 7, rst := [.high false] } = .next t ∧ t.dly ≠ 7) :=
  ⟨⟨_, rfl, by decide⟩, ⟨_, rfl, by decide +kernel⟩⟩
theorem test_witness_held_error :
    let held (bytes : List Byte) : State := { given bytes with verr := .noMessages }
    (held [0x01]).verr ≠ .none ∧ (∃ t, step (held [0x01]) = .next t ∧ t.verr = .none) ∧
    (∃ t, step (held [0x04]) = .next t ∧ t.verr = .noMessages) ∧
    (∃ t, step { held [] with rst := [.high false] } = .next t ∧ t.verr = .none) :=
  ⟨by decide, ⟨_, rfl, rfl⟩, ⟨_, rfl, rfl⟩, ⟨_, rfl, rfl⟩⟩
theorem test_witness_trace_grows :
    (∃ t, step (atInit [.ok]) = .next t ∧ t.trace = [.tx 0x00, .gap 200]) ∧
    (∃ t, step (inGap .pktGap 0 3 200) = .next t ∧ t.trace = [.gap 200]) :=
  ⟨⟨_, rfl, rfl⟩, ⟨_, rfl, rfl⟩⟩
theorem test_witness_validation_error :
    NoResetNow (given [0x7F]) ∧ (given [0x7F]).ph = .idle ∧
    (∃ t, step (given [0x7F]) = .next t ∧ t.verr ≠ .none) ∧
    (∃ t, step { given [0x04] with verr := .noMessages } = .next t) :=
  ⟨by simp [NoResetNow, given, State.reset], rfl, ⟨_, rfl, by decide⟩, ⟨_, rfl⟩⟩
/-- A byte beyond the one message, at 300, differs. -/
theorem test_witness_beyond_count :
    (∀ a < 256 * one.cnt.toNat, Memory.read (oneStore ++ [(300, 0x55)]) a = Memory.read one.mb a) ∧
    oneStore ++ [(300, 0x55)] ≠ one.mb ∧ ∃ t, step one = .next t := by
  refine ⟨fun a ha => ?_, by simp [one], ⟨_, rfl⟩⟩
  have : a < 256 := by simpa [one] using ha
  rw [Memory.read_append]
  have hn : Memory.read [(300, (0x55 : Byte))] a = none := by simp [Memory.read]; omega
  rw [hn]; simp [one]
/-- A run at its init byte, and one at its last byte, the sink answering either way. -/
theorem test_witness_run_trace :
    (atInit [.ok]).trace = [] ++ emitted (atInit [.ok]) ∧
    (∃ t, step (atInit [.ok]) = .next t ∧ t.ph = .initGap) ∧
    (atLastByte [.ok]).trace = [] ++ emitted (atLastByte [.ok]) ∧
    (∃ t, step (atLastByte [.ok]) = .next t ∧ t.ph = .idle ∧ t.res = .ok) ∧
    (∃ t, step (atLastByte [.fail]) = .next t ∧ t.ph = .idle ∧ t.res = .ioError) ∧
    NoResetNow (atInit [.ok]) ∧ NoResetNow (atLastByte [.ok]) :=
  ⟨rfl, ⟨_, rfl, rfl⟩, rfl, ⟨_, rfl, rfl, rfl⟩, ⟨_, rfl, rfl, rfl⟩, by simp [NoResetNow, atInit, one, State.reset],
    by simp [NoResetNow, atLastByte, one, State.reset]⟩

/-- One message, TRANSMIT presented, a sink that takes every byte, and these readings of the timebase. -/
def readyToSend (d : BitVec 16) (tick : List Nat) : State :=
  { one with dly := d, cmd := [0x04], sink := List.replicate 280 .ok, tick := tick }

theorem test_witness_ready (d : BitVec 16) (tick : List Nat) :
    let s := readyToSend d tick
    Inv s ∧ NoReset s ∧ s.ph = .idle ∧ s.verr = .none ∧ 1 ≤ s.cnt.toNat ∧ s.rx ++ s.cmd = 0x04 :: [] ∧
      s.sink = List.replicate (byteCount s.cnt.toNat) .ok ++ [] ∧ 6 = gapCount s.cfg s.cnt.toNat :=
  ⟨test_one_inv _ rfl rfl rfl rfl rfl rfl trivial, fun r hr => (by cases hr), rfl, rfl, (by decide : 1 ≤ (1#3).toNat),
    rfl, (List.append_nil _).symm, rfl⟩
/-- The first interval takes two readings, the others one, and one reading is left; and a run with DLY = 0 that takes
none. -/
theorem test_witness_run_intervals :
    (readyToSend 200 [199, 200, 200, 200, 200, 200, 200, 7]).tick = [199, 200, 200, 200, 200, 200, 200] ++ [7] ∧
    (readyToSend 200 []).dly ≠ 0 ∧ endsIntervals 200 [199, 200, 200, 200, 200, 200, 200] 6 ∧
    (readyToSend 0 []).dly = 0 ∧ (readyToSend 0 []).tick = [] ++ [] :=
  ⟨rfl, (by decide : (200#16) ≠ 0), by simp [endsIntervals], rfl, rfl⟩
theorem test_witness_run_ends :
    let s : State := { atInit (List.replicate 1660 .ok) with tick := List.replicate 31 200 }
    Inv s ∧ s.ph ≠ .idle ∧ NoReset s ∧ 1660 ≤ s.sink.length ∧
      31 ≤ (s.tick.filter (fun m => s.dly.toNat ≤ m)).length :=
  ⟨test_one_inv _ rfl rfl rfl rfl rfl rfl trivial, (by intro h; cases h), fun r hr => (by cases hr), by decide,
    by decide⟩
/-- A state of each writing phase that presents a byte, the sink answering `ok`, and one that presents none. -/
theorem test_witness_presented :
    (atInit [.ok]).txData = some 0x00 ∧ (atLastByte [.ok]).txData = some 0x01 ∧ NoResetNow (atInit [.ok]) ∧
    (atInit [.ok]).sink = .ok :: [] ∧ one.txValid = false ∧ (∃ t, step one = .next t) ∧
    Inv { atPacket with sink := [.ok] } ∧ ({ atPacket with sink := [.ok] } : State).txValid = true :=
  ⟨rfl, rfl, by simp [NoResetNow, atInit, one, State.reset], rfl, rfl, ⟨_, rfl⟩,
    test_one_inv _ rfl rfl rfl rfl rfl rfl ⟨by decide, by decide, fun h => absurd h (by decide)⟩, rfl⟩
theorem test_witness_counted_buffers : ∀ i < 6, ((fun _ => helloBuffer : Nat → List Byte) i).length = 256 := by
  decide

end Sys2Proof.Tests
end

section
/-! The output ports as functions of the state (10_state.md R24 to R27, R31 to R33), and the statements about STATUS
and about the values a reset gives. -/

namespace Sys2Proof.Machine

open Sys2Proof

/-! ### The ports of an idle block (R26, R31 to R33) -/

theorem State.busy_eq_decide (s : State) : s.busy = decide (s.ph ≠ .idle) := by
  cases hp : s.ph <;> simp [State.busy, hp]

theorem State.busy_of_idle {s : State} (hp : s.ph = .idle) : s.busy = false := by
  simp [State.busy_eq_decide, hp]

theorem State.cmdReady_of_idle {s : State} (hp : s.ph = .idle) : s.cmdReady = true := by
  simp [State.cmdReady, State.busy_of_idle hp]

theorem State.txValid_of_idle {s : State} (hp : s.ph = .idle) : s.txValid = false := by
  simp [State.txValid, hp]

/-! ### The fields of STATUS (R27) -/

theorem State.status_bit_zero (s : State) : s.status.getLsbD 0 = s.busy := by
  rw [State.status, BitVec.getLsbD_append]
  simp

theorem State.status_verr_field (s : State) : s.status.extractLsb' 1 3 = verrCode s.verr := by
  rw [State.status, BitVec.extractLsb'_append_eq_of_le (by decide), BitVec.extractLsb'_append_eq_right]

theorem State.status_res_field (s : State) : s.status.extractLsb' 4 2 = resCode s.res := by
  rw [State.status, BitVec.extractLsb'_append_eq_of_le (by decide), BitVec.extractLsb'_append_eq_of_le (by decide),
    BitVec.extractLsb'_append_eq_right]

theorem State.status_cnt_field (s : State) : s.status.extractLsb' 6 3 = s.cnt := by
  rw [State.status, BitVec.extractLsb'_append_eq_of_le (by decide), BitVec.extractLsb'_append_eq_of_le (by decide),
    BitVec.extractLsb'_append_eq_of_le (by decide), BitVec.extractLsb'_append_eq_right]

theorem State.status_high_field (s : State) : s.status.extractLsb' 9 7 = 0 := by
  rw [State.status, BitVec.extractLsb'_append_eq_of_le (by decide), BitVec.extractLsb'_append_eq_of_le (by decide),
    BitVec.extractLsb'_append_eq_of_le (by decide), BitVec.extractLsb'_append_eq_left]
  rfl

/-- STATUS of an idle block with no messages, no error and no result. -/
theorem State.status_eq_zero {s : State} (hc : s.cnt = 0) (hv : s.verr = .none) (hr : s.res = .none)
    (hp : s.ph = .idle) : s.status = 0 := by
  rw [State.status, hc, hv, hr, State.busy_of_idle hp]
  rfl

/-! ### The statements -/

/-- Settles O33: the step is `resetBlock` of the state behind the sample, and the ports follow from its registers. -/
theorem resetGivesTheResetValues : Obligations.ResetGivesTheResetValues := by
  intro s d r h
  have hidle : (resetBlock d s.txData { s with rst := r }).ph = .idle := resetBlock_ph ..
  exact ⟨_, step_of_high h, resetBlock_cnt .., resetBlock_dly .., resetBlock_verr .., resetBlock_res .., hidle,
    State.txValid_of_idle hidle, State.cmdReady_of_idle hidle,
    State.status_eq_zero (resetBlock_cnt ..) (resetBlock_verr ..) (resetBlock_res ..) hidle,
    resetBlock_cfg .., resetBlock_cmd .., resetBlock_sink .., resetBlock_tick .., resetBlock_rst ..⟩

/-- Settles O37, one field of STATUS after the other. -/
theorem statusShowsTheRegisters : Obligations.StatusShowsTheRegisters := fun s =>
  ⟨s.status_bit_zero.trans s.busy_eq_decide, s.status_verr_field, s.status_res_field, s.status_cnt_field,
    s.status_high_field, rfl, rfl, rfl, rfl, rfl, rfl, rfl, rfl, rfl, rfl, rfl⟩

end Sys2Proof.Machine
end

section
/-! MessageBuilder (40_message_builder.md): the bytes of Build, the effect bytes, APPEND's checks and its success, and
what an error held does to the commands. -/

namespace Sys2Proof.Machine

open Sys2Proof

/-! ### The bytes of Build (R100) -/

theorem build_text_byte (text : List Byte) (sp tag : Byte) (k : Nat) {j : Nat} (h : j < text.length) :
    (build text sp tag k)[4 + j]? = text[j]? := by
  rw [build, List.getElem?_append_left (by simp; omega), List.getElem?_append_right (by simp)]
  simp

theorem build_padding_byte (text : List Byte) (sp tag : Byte) (k : Nat) {j : Nat} (h : 4 + text.length ≤ j)
    (hj : j < 256) : (build text sp tag k)[j]? = some 0x00 := by
  rw [build, List.getElem?_append_right (by simp; omega), List.getElem?_replicate, if_pos]
  simp; omega

/-- The code of a digit character below 10, added in 8 bits without a carry. -/
theorem digit_toNat {b : Byte} (h : b.toNat < 10) : (0x30 + b).toNat = 0x30 + b.toNat := by
  simp [BitVec.toNat_add]; omega

/-! ### The effect bytes (R75, R82) -/

theorem decodeEffect_effectTag (e : Effect) : decodeEffect (effectTag e) = some e := by
  cases e <;> rfl

theorem effectTag_range (e : Effect) : 0x41 ≤ (effectTag e).toNat ∧ (effectTag e).toNat ≤ 0x45 := by
  cases e <;> decide

/-- The tags are the whole range 0x41 to 0x45. -/
theorem exists_effectTag {ef : Byte} (h : 0x41 ≤ ef.toNat ∧ ef.toNat ≤ 0x45) : ∃ e, effectTag e = ef := by
  have hcode : ef.toNat = 0x41 ∨ ef.toNat = 0x42 ∨ ef.toNat = 0x43 ∨ ef.toNat = 0x44 ∨ ef.toNat = 0x45 := by omega
  rcases hcode with h | h | h | h | h
  · exact ⟨.hold, BitVec.eq_of_toNat_eq h.symm⟩
  · exact ⟨.scroll, BitVec.eq_of_toNat_eq h.symm⟩
  · exact ⟨.snow, BitVec.eq_of_toNat_eq h.symm⟩
  · exact ⟨.flash, BitVec.eq_of_toNat_eq h.symm⟩
  · exact ⟨.frame, BitVec.eq_of_toNat_eq h.symm⟩

/-- A known effect byte is 0x00 or the tag of its effect. -/
theorem decodeEffect_eq_some {ef : Byte} {e : Effect} (h : decodeEffect ef = some e) :
    ef = 0x00 ∨ ef = effectTag e := by
  unfold decodeEffect at h
  split_ifs at h with h0 <;> cases h
  · exact .inl h0
  all_goals exact .inr ‹_›

/-- What a known effect byte stores as its tag: itself, and Scroll's for 0x00. -/
theorem decodeEffect_of_known {ef : Byte} (h : ef = 0x00 ∨ 0x41 ≤ ef.toNat ∧ ef.toNat ≤ 0x45) :
    ∃ e, decodeEffect ef = some e ∧ effectTag e = if ef = 0x00 then 0x42 else ef := by
  rcases h with rfl | h
  · exact ⟨.scroll, rfl, rfl⟩
  · obtain ⟨e, rfl⟩ := exists_effectTag h
    have h0 : effectTag e ≠ 0x00 := by cases e <;> decide
    exact ⟨e, decodeEffect_effectTag e, (if_neg h0).symm⟩

theorem decodeEffect_of_unknown {ef : Byte} (h0 : ef ≠ 0x00) (h : ef.toNat < 0x41 ∨ 0x45 < ef.toNat) :
    decodeEffect ef = none := by
  refine Option.eq_none_iff_forall_ne_some.2 fun e he => ?_
  obtain rfl := (decodeEffect_eq_some he).resolve_left h0
  have := effectTag_range e
  omega

/-! ### The checks of APPEND, one equation per outcome (R102 to R106) -/

section
variable {cfg : Config} {cnt : BitVec 3} {sp ef : Byte} {text : List Byte}

theorem checkAppend_messageTooLong (h : 250 ≤ text.length) :
    checkAppend cfg cnt sp ef text = .error .messageTooLong := if_pos h

theorem checkAppend_tooManyMessages (ht : text.length < 250) (hc : cnt.toNat = cfg.maxMessages) :
    checkAppend cfg cnt sp ef text = .error .tooManyMessages := by
  rw [checkAppend, if_neg (by simpa using ht), if_pos hc]

theorem checkAppend_speedOutOfRange (ht : text.length < 250) (hc : cnt.toNat ≠ cfg.maxMessages)
    (hs : sp.toNat < 1 ∨ 5 < sp.toNat) : checkAppend cfg cnt sp ef text = .error .speedOutOfRange := by
  rw [checkAppend, if_neg (by simpa using ht), if_neg hc, if_pos hs]

/-- Past the first three checks the effect byte decides. -/
theorem checkAppend_effect (ht : text.length < 250) (hc : cnt.toNat ≠ cfg.maxMessages) (h1 : 1 ≤ sp.toNat)
    (h5 : sp.toNat ≤ 5) :
    checkAppend cfg cnt sp ef text = (decodeEffect ef).elim (.error .unknownEffect) .passed := by
  rw [checkAppend, if_neg (by simpa using ht), if_neg hc, if_neg (by omega)]
  cases decodeEffect ef <;> rfl

end

/-! ### The outcomes of APPEND (R103 to R108) -/

theorem exec_append_of_error {s : State} {sp ef : Byte} {text : List Byte} {code : Verr} (hv : s.verr = .none)
    (h : checkAppend s.cfg s.cnt sp ef text = .error code) :
    exec (.append sp ef text) s = .next { s with verr := code } := by
  simp only [exec, execAppend, if_pos hv, h, raiseValidation_of_none code hv]

theorem exec_append_of_passed {s : State} {sp ef : Byte} {text : List Byte} {e : Effect} (hv : s.verr = .none)
    (h : checkAppend s.cfg s.cnt sp ef text = .passed e) :
    exec (.append sp ef text) s = storeMessage (build text sp (effectTag e) (s.cnt.toNat + 1)) s := by
  simp only [exec, execAppend, if_pos hv, h]

/-- Slot CNT lies inside the store while the list is not full, so storing a buffer cannot fault. -/
theorem storeMessage_eq {B : List Byte} {s : State} (hB : B.length = 256) (hc : s.cnt.toNat < s.cfg.maxMessages) :
    storeMessage B s = .next { s with mb := s.mb.writeBlock (256 * s.cnt.toNat) B, cnt := s.cnt + 1 } := by
  have hfit : slotAddr s.cnt.toNat 0 + B.length ≤ s.cfg.storeSize := by
    simp only [slotAddr, Config.storeSize, Config.bufSize, hB]; omega
  rw [storeMessage, memWrite_eq hfit]
  rfl

/-- CNT does not wrap while the list is not full. -/
theorem cnt_succ_toNat {s : State} (hc : s.cnt.toNat < s.cfg.maxMessages) : (s.cnt + 1).toNat = s.cnt.toNat + 1 := by
  have hmax := maxMessages_le s.cfg
  exact BitVec.toNat_add_of_lt (show s.cnt.toNat + 1 < 2 ^ 3 by omega)

/-! ### The statements -/

/-- Settles O5: the header is read off, the text and the padding are the two parts behind it. -/
theorem buildLaysOutTheBuffer : Obligations.BuildLaysOutTheBuffer := by
  intro text speed tag k ht hs1 hs5 _ _ hk1 hk6
  have hlen : (BitVec.ofNat 8 text.length).toNat = text.length := Nat.mod_eq_of_lt (by omega)
  have hk : (BitVec.ofNat 8 k).toNat = k := Nat.mod_eq_of_lt (by omega)
  have hspeed : (0x30 + speed).toNat = 0x30 + speed.toNat := digit_toNat (by omega)
  have hslot : (0x30 + BitVec.ofNat 8 k).toNat = 0x30 + k := by rw [digit_toNat (by omega), hk]
  exact ⟨build_length text speed tag k (by omega), congrArg some hspeed, congrArg some hslot, rfl,
    congrArg some hlen, fun _ hj => build_text_byte text speed tag k hj,
    fun _ h hj => build_padding_byte text speed tag k h hj⟩

/-- Settles O6: the checks pass with an effect of the stated tag, and the store reads as after one block write. -/
theorem appendStoresTheMessage : Obligations.AppendStoresTheMessage := by
  intro s sp ef text hv ht hc h1 h5 hef
  obtain ⟨e, he, htag⟩ := decodeEffect_of_known hef
  have hpass : checkAppend s.cfg s.cnt sp ef text = .passed e := by
    rw [checkAppend_effect ht (Nat.ne_of_lt hc) h1 h5, he]; rfl
  rw [exec_append_of_passed hv hpass, ← htag]
  generalize hB : build text sp (effectTag e) (s.cnt.toNat + 1) = B
  have hlen : B.length = 256 := hB ▸ build_length _ _ _ _ (by omega)
  refine ⟨_, storeMessage_eq hlen hc, cnt_succ_toNat hc, ?_, fun a ha => ?_, Memory.wf_writeBlock _ _ _, rfl⟩
  · rw [← hlen]; exact Memory.readBlock_writeBlock_same ..
  · rw [Memory.read_writeBlock, if_neg (by omega)]

/-- Settles O7, one check after the other. -/
theorem appendReportsTheFirstFailingCheck : Obligations.AppendReportsTheFirstFailingCheck := by
  intro s sp ef text hv
  refine ⟨fun ht => ?_, fun ht hc => ?_, fun ht hc hs => ?_, fun ht hc h1 h5 h0 hef => ?_⟩
  · exact exec_append_of_error hv (checkAppend_messageTooLong ht)
  · exact exec_append_of_error hv (checkAppend_tooManyMessages ht hc)
  · exact exec_append_of_error hv (checkAppend_speedOutOfRange ht hc hs)
  · refine exec_append_of_error hv ?_
    rw [checkAppend_effect ht hc h1 h5, decodeEffect_of_unknown h0 hef]
    rfl

/-- Settles O8, by the command: each but CLEAR either tests VERR first or raises an error that VERR does not take. -/
theorem errorStateRefusesEveryCommandButClear : Obligations.ErrorStateRefusesEveryCommandButClear := by
  intro i s hi hclear hv
  cases i with
  | nop => rfl
  | clear => exact absurd rfl hclear
  | setdelay ms => exact if_neg hv
  | append sp ef text => exact if_neg hv
  | transmit => exact if_neg hv
  | illegal opcode => exact congrArg Host.Outcome.next (raiseValidation_of_error _ hv)
  | init => cases hi
  | pkt tm c payload ck => cases hi
  | term mask => cases hi

end Sys2Proof.Machine
end

section
/-! The packetizer (41_packetizer.md): the bytes of a PKT frame, the sum they end with, and the mask of a terminator. -/

namespace Sys2Proof.Machine

open Sys2Proof

/-! ### The bytes of a PKT frame (R121, R124) -/

/-- TYPE_BASE + i does not wrap: the list holds at most 6 messages. -/
theorem typeMarker_toNat (cfg : Config) {i : Nat} (h : i < cfg.maxMessages) :
    (typeMarker cfg i).toNat = if cfg.typeMarkerPerSlot then 6 + i else 6 := by
  have hmax := maxMessages_le cfg
  have hsmall : 6 + i < 2 ^ 8 := by omega
  unfold typeMarker
  split
  · exact Nat.mod_eq_of_lt hsmall
  · rfl

theorem chunkOffset_toNat (c : BitVec 2) : (chunkOffset c).toNat = 64 * c.toNat := by
  have hc := c.isLt
  exact Nat.mod_eq_of_lt (by omega)

theorem chunkOf_getElem? (B : List Byte) (c : BitVec 2) {j : Nat} (h : j < 64) :
    (chunkOf B c)[j]? = B[64 * c.toNat + j]? := by
  rw [chunkOf, List.getElem?_take_of_lt h, List.getElem?_drop]

theorem encode_pkt_payload (tm : Byte) (c : BitVec 2) {p : List Byte} (ck : Byte) {j : Nat} (h : j < p.length) :
    (encode (.pkt tm c p ck))[4 + j]? = p[j]? := by
  rw [encode, List.getElem?_append_left (by simp; omega), List.getElem?_append_right (by simp)]
  simp

/-- A frame that carries the model's checksum ends with the sum of its own positions 1 to 67, modulo 256. -/
theorem encode_pkt_checksum (tm : Byte) (c : BitVec 2) {p : List Byte} (h : p.length = 64) :
    (encode (.pkt tm c p (pktChecksum tm c p)))[68]?.map BitVec.toNat =
      some (((((encode (.pkt tm c p (pktChecksum tm c p))).take 68).drop 1).map BitVec.toNat).sum % 256) := by
  rw [encode_pkt_last h, encode_pkt_summed h, Option.map_some, pktChecksum, byteSum_toNat]

theorem sum_toNat_le (l : List Byte) : (l.map BitVec.toNat).sum ≤ l.length * 255 := by
  have hbyte : ∀ n ∈ l.map BitVec.toNat, n ≤ 255 := by
    simp only [List.mem_map]
    rintro _ ⟨b, -, rfl⟩
    exact Nat.le_of_lt_succ b.isLt
  simpa using List.sum_le_card_nsmul _ _ hbyte

/-! ### The mask of a terminator (R128) -/

/-- The mask is the same number in the operand's 6 bits and in the frame's byte. -/
theorem termMask_setWidth {n : Nat} (h : n ≤ 6) : (termMask n).setWidth 8 = BitVec.ofNat 8 ((1 <<< n) - 1) := by
  have hpow : 2 ^ n ≤ 2 ^ 6 := Nat.pow_le_pow_right (by decide) h
  refine BitVec.eq_of_toNat_eq ?_
  simp only [termMask, Nat.one_shiftLeft, BitVec.toNat_setWidth, BitVec.toNat_ofNat]
  omega

theorem getLsbD_lowBits (w n k : Nat) :
    (BitVec.ofNat w ((1 <<< n) - 1)).getLsbD k = (decide (k < w) && decide (k < n)) := by
  rw [BitVec.getLsbD_ofNat, Nat.one_shiftLeft, Nat.testBit_two_pow_sub_one]

/-! ### The statements -/

/-- Settles O18: the first four bytes are read off, then the chunk, then the sum. -/
theorem packetBytesFollowTheLayout : Obligations.PacketBytesFollowTheLayout := by
  intro cfg B i c hB hi
  have hp : (chunkOf B c).length = 64 := chunkOf_length c hB
  refine ⟨encode_pkt_length hp, rfl, rfl, congrArg some (typeMarker_toNat cfg hi),
    congrArg some (chunkOffset_toNat c), fun j hj => ?_, encode_pkt_checksum _ c hp⟩
  exact (encode_pkt_payload _ c _ (hp.symm ▸ hj)).trans (chunkOf_getElem? B c hj)

/-- Settles O19: 67 bytes of at most 255 each, and the frame's own last byte. -/
theorem checksumIsTheSumModulo256 : Obligations.ChecksumIsTheSumModulo256 := by
  intro tm c payload hp P sum
  have hlen : ((P.take 68).drop 1).length = 67 := by simp [P, encode_pkt_length hp]
  refine ⟨hlen, ?_, encode_pkt_checksum tm c hp⟩
  calc sum ≤ ((P.take 68).drop 1).length * 255 := sum_toNat_le _
    _ = 17085 := by rw [hlen]

/-- Settles O21: the operand's mask widened to a byte is `2 ^ n - 1`, whose bits are the low `n`. -/
theorem termMaskHasExactlyTheLowBits : Obligations.TermMaskHasExactlyTheLowBits := by
  intro n _ hn
  refine ⟨?_, fun k hk => ?_⟩
  · rw [termBytes, termInstr, encode, termMask_setWidth hn]
  · rw [getLsbD_lowBits, decide_eq_true hk, Bool.true_and]

end Sys2Proof.Machine
end

section
/-! The transmit sequencer (42_transmit_sequencer.md): the command TRANSMIT and the Write steps of TERM. -/

namespace Sys2Proof.Machine

open Sys2Proof

/-! ### TRANSMIT (R141) -/

theorem decodeCommand_transmit (rest : List Byte) : decodeCommand (0x04 :: rest) = .ok .transmit rest := rfl

theorem exec_transmit_of_error {s : State} (hv : s.verr ≠ .none) : exec .transmit s = .next s := if_neg hv

theorem exec_transmit_of_empty {s : State} (hv : s.verr = .none) (hc : s.cnt = 0) :
    exec .transmit s = .next { s with verr := .noMessages } := by
  rw [exec, execTransmit, if_pos hv, if_pos hc, raiseValidation_of_none _ hv]

theorem exec_transmit_starts {s : State} (hv : s.verr = .none) (hc : s.cnt ≠ 0) :
    exec .transmit s = .next { s with res := .none, ph := .init } := by
  rw [exec, execTransmit, if_pos hv, if_neg hc]

theorem cnt_ne_zero {s : State} (h : 1 ≤ s.cnt.toNat) : s.cnt ≠ 0 := by
  intro hc
  simp [hc] at h

/-! ### The Write steps of TERM (R149) -/

/-- The Write step at a position that has a byte is the write of that byte. -/
theorem exec_term_eq {mask : BitVec 6} {s : State} {b : Byte} (hb : termByte mask s.bi.toNat = some b) :
    exec (.term mask) s = sinkWrite b (afterTermByte s.bi.toNat) s := by
  simp only [exec, execTerm, hb]

/-- Before the mask BI goes up by one and the byte joins the trace. -/
theorem exec_term_of_lt {mask : BitVec 6} {s : State} {r : List SinkAnswer} {b : Byte} (hlt : s.bi.toNat < 2)
    (hb : termByte mask s.bi.toNat = some b) (hs : s.sink = .ok :: r) :
    exec (.term mask) s = .next { s with sink := r, bi := s.bi + 1, trace := s.trace ++ [.tx b] } := by
  rw [exec_term_eq hb, sinkWrite_ok _ _ hs, afterTermByte, if_neg (by omega), State.deliver]

/-! ### The statements -/

/-- Settles O14, one outcome of TRANSMIT after the other. -/
theorem transmitStartsARunOrRaisesNoMessages : Obligations.TransmitStartsARunOrRaisesNoMessages := by
  intro s
  exact ⟨decodeCommand_transmit, fun hbusy => by rw [State.cmdReady, hbusy]; rfl, rfl, exec_transmit_of_error,
    fun hv hc => exec_transmit_of_empty hv (BitVec.eq_of_toNat_eq hc),
    fun hv hc => exec_transmit_starts hv (cnt_ne_zero hc)⟩

/-- Settles O25, by the byte: the first two move BI on, the mask ends the run. -/
theorem termWriteDeliversTheNextByte : Obligations.TermWriteDeliversTheNextByte := by
  intro mask s r hs
  refine ⟨fun h0 => ?_, fun h1 => ?_, fun h2 => ?_⟩
  · have hbi : s.bi = 0 := BitVec.eq_of_toNat_eq h0
    rw [exec_term_of_lt (by omega) (by rw [h0]; rfl) hs, hbi]
    rfl
  · have hbi : s.bi = 1 := BitVec.eq_of_toNat_eq h1
    rw [exec_term_of_lt (by omega) (by rw [h1]; rfl) hs, hbi]
    rfl
  · have hb : termByte mask s.bi.toNat = some (BitVec.ofNat 8 mask.toNat) := by
      rw [h2, BitVec.ofNat_toNat]; rfl
    rw [exec_term_eq hb, sinkWrite_ok _ _ hs, h2]
    exact ⟨_, rfl, rfl, rfl, rfl, rfl, rfl, rfl, rfl, rfl, rfl, rfl, rfl, rfl, rfl⟩

end Sys2Proof.Machine
end

section
/-! A run as one phase after the other (42_transmit_sequencer.md R142 to R156): how many writes and intervals its
position leaves to do, what each of its steps does to them, to the invariant and to the trace. -/

namespace Sys2Proof.Machine

open Sys2Proof

/-! ### What is left of a run -/

/-- How many bytes a run at this position has yet to write. -/
def bytesLeft (s : State) : Nat :=
  match s.ph with
  | .idle => 0
  | .init => byteCount s.cnt.toNat
  | .initGap => 276 * s.cnt.toNat + 3
  | .pkt => 276 * (s.cnt.toNat - s.mi.toNat) + 3 - 69 * s.ci.toNat - s.bi.toNat
  | .pktGap => 276 * (s.cnt.toNat - s.mi.toNat) + 3 - 69 * (s.ci.toNat + 1)
  | .msgGap => 276 * (s.cnt.toNat - s.mi.toNat - 1) + 3
  | .term => 3 - s.bi.toNat

/-- How many delay intervals a run at this position has yet to wait out, the one it is in among them. -/
def gapsLeft (s : State) : Nat :=
  match s.ph with
  | .idle | .term => 0
  | .init => gapCount s.cfg s.cnt.toNat
  | .initGap => 5 * s.cnt.toNat + 1
  | .pkt | .pktGap => 5 * (s.cnt.toNat - s.mi.toNat) - s.ci.toNat
  | .msgGap => 5 * (s.cnt.toNat - s.mi.toNat) - 4

/-! ### The pieces of Seq (R140) -/

theorem txAll_take_succ {F : List Byte} {k : Nat} {b : Byte} (h : F[k]? = some b) :
    txAll (F.take (k + 1)) = txAll (F.take k) ++ [.tx b] := by
  rw [List.take_add_one, h, Option.toList_some, txAll, List.map_append]
  rfl

theorem txAll_eq_of_last {F : List Byte} {k : Nat} {b : Byte} (hl : F.length = k + 1) (h : F[k]? = some b) :
    txAll F = txAll (F.take k) ++ [.tx b] := by
  rw [← txAll_take_succ h, ← hl, List.take_length]

theorem packetsBefore_succ (cfg : Config) (d : BitVec 16) (B : List Byte) (i : Nat) (c : BitVec 2) :
    packetsBefore cfg d B i (c.toNat + 1) = packetsBefore cfg d B i c.toNat ++ pktEvents cfg d B i c := by
  have hc : [0#2, 1#2, 2#2, 3#2][c.toNat]? = some c := by revert c; decide
  rw [packetsBefore, List.take_add_one, hc, List.flatMap_append]
  simp [packetsBefore]

theorem messagesEvents_succ (cfg : Config) (d : BitVec 16) (buf : Nat → List Byte) (n : Nat) :
    messagesEvents cfg d buf (n + 1) =
      messagesEvents cfg d buf n ++ (messageEvents cfg d (buf n) n ++ [.gap d]) := by
  rw [messagesEvents, List.range_succ, List.flatMap_append]
  simp [messagesEvents]

/-! ### How far a run has come -/

/-- What a run that has met no failed write has emitted: the piece of `Seq` at its position, all of it at the end. -/
def progress (s : State) : List Event := if s.ph = .idle then fullSeq s else emitted s

/-- What a run has emitted before message `m`. -/
def beforeMessage (s : State) (m : Nat) : List Event :=
  initEvents s.cfg s.dly ++ messagesEvents s.cfg s.dly (slotBytes s.mb) m

section
variable {s : State}

theorem progress_idle (hp : s.ph = .idle) : progress s = beforeMessage s s.cnt.toNat ++ txAll (termBytes s.cnt.toNat) :=
  if_pos hp

theorem progress_init (hp : s.ph = .init) : progress s = [] := by simp [progress, emitted, hp]

theorem progress_initGap (hp : s.ph = .initGap) : progress s = initEvents s.cfg s.dly := by
  simp [progress, emitted, hp]

theorem progress_pkt (hp : s.ph = .pkt) :
    progress s = beforeMessage s s.mi.toNat
      ++ packetsBefore s.cfg s.dly (slotBytes s.mb s.mi.toNat) s.mi.toNat s.ci.toNat
      ++ txAll ((positionBytes s).take s.bi.toNat) := by
  simp [progress, emitted, hp, beforeMessage]

theorem progress_pktGap (hp : s.ph = .pktGap) :
    progress s = beforeMessage s s.mi.toNat
      ++ packetsBefore s.cfg s.dly (slotBytes s.mb s.mi.toNat) s.mi.toNat (s.ci.toNat + 1) := by
  simp [progress, emitted, hp, beforeMessage]

theorem progress_msgGap (hp : s.ph = .msgGap) : progress s = beforeMessage s (s.mi.toNat + 1) := by
  simp [progress, emitted, hp, beforeMessage, messagesEvents_succ]

theorem progress_term (hp : s.ph = .term) :
    progress s = beforeMessage s s.cnt.toNat ++ txAll ((termBytes s.cnt.toNat).take s.bi.toNat) := by
  simp [progress, emitted, hp, beforeMessage]

end

/-! ### The frame at the position, under the invariant -/

/-- The invariant does not speak of the sink, the timebase and the reset pin. -/
theorem Inv.inputs {s : State} (hi : Inv s) (r : List SinkAnswer) (q : List Nat) (w : List RstSample) :
    Inv { s with sink := r, tick := q, rst := w } :=
  ⟨hi.store_wf, hi.store_bound, hi.cnt_le, hi.slots, hi.rx_open, hi.running, hi.position⟩

theorem Inv.sampled {s : State} (hi : Inv s) : Inv (sampled s) := hi.inputs _ _ _

/-- What the invariant says of a position in PKT. -/
theorem Inv.pkt_position {s : State} (hi : Inv s) (hp : s.ph = .pkt) :
    s.mi.toNat < s.cnt.toNat ∧ s.bi.toNat ≤ 68 ∧ csumAgrees s := by
  have h := hi.position
  rwa [positionInv, hp] at h

/-- What the invariant says of a position in TERM. -/
theorem Inv.term_position {s : State} (hi : Inv s) (hp : s.ph = .term) : s.bi.toNat ≤ 2 := by
  have h := hi.position
  rwa [positionInv, hp] at h

theorem positionBytes_length {s : State} (hi : Inv s) (hm : s.mi.toNat < s.cnt.toNat) :
    (positionBytes s).length = 69 :=
  encode_pkt_length (chunkOf_length _ (legalBuffer_length (hi.slots _ hm)))

/-- An appended message can be read chunk by chunk. -/
theorem currentPkt_eq {s : State} (hi : Inv s) (hm : s.mi.toNat < s.cnt.toNat) :
    currentPkt s =
      .ok (pktInstr s.cfg s.mi.toNat s.ci (chunkOf (slotBytes s.mb s.mi.toNat) s.ci)) := by
  have hci := s.ci.isLt
  have hcnt := hi.cnt_le
  have hchunk := Memory.readBlock_inside _ _ 256 (64 * s.ci.toNat) 64 _ (readBlock_of_legal (hi.slots _ hm)) (by omega)
  have hread : memRead s (slotAddr s.mi.toNat (Config.chunkSize * s.ci.toNat)) Config.chunkSize =
      .ok (chunkOf (slotBytes s.mb s.mi.toNat) s.ci) := by
    refine memRead_eq ?_ hchunk
    simp only [slotAddr, Config.storeSize, Config.bufSize, Config.chunkSize]
    omega
  rw [currentPkt, hread]

theorem currentTerm_eq {s : State} (hi : Inv s) (hp : s.ph ≠ .idle) :
    currentTerm s = .ok (termInstr s.cnt.toNat) := by
  obtain ⟨-, -, hcnt, -⟩ := hi.running hp
  rw [currentTerm, if_pos ⟨hcnt, hi.cnt_le⟩]

/-- The accumulator after position 67 is the frame's checksum, so the byte written is the frame's at each position. -/
theorem pktByte_eq {s : State} (hi : Inv s) (hp : s.ph = .pkt) :
    let payload := chunkOf (slotBytes s.mb s.mi.toNat) s.ci
    let tm := typeMarker s.cfg s.mi.toNat
    pktByte tm s.ci payload (pktChecksum tm s.ci payload) s.csum s.bi.toNat = (positionBytes s)[s.bi.toNat]? := by
  intro payload tm
  obtain ⟨hm, -, hcsum⟩ := hi.pkt_position hp
  have hlen : payload.length = 64 := chunkOf_length _ (legalBuffer_length (hi.slots _ hm))
  by_cases h68 : s.bi.toNat = 68
  · have hsum : s.csum = pktChecksum tm s.ci payload := by
      rw [hcsum (by omega), h68]
      exact congrArg byteSum (encode_pkt_summed hlen)
    rw [pktByte, if_pos h68, h68, hsum]
    exact (encode_pkt_last hlen).symm
  · rw [pktByte, if_neg h68]
    rfl

/-! ### The byte presented (R31, R33) -/

theorem txData_of_init {s : State} (hp : s.ph = .init) : s.txData = some 0x00 := by
  rw [State.txData, hp]

theorem txData_of_pkt {s : State} (hi : Inv s) (hp : s.ph = .pkt) :
    s.txData = (positionBytes s)[s.bi.toNat]? := by
  obtain ⟨hm, -⟩ := hi.pkt_position hp
  simp only [State.txData, hp, currentPkt_eq hi hm]
  exact pktByte_eq hi hp

theorem txData_of_term {s : State} (hi : Inv s) (hp : s.ph = .term) :
    s.txData = (termBytes s.cnt.toNat)[s.bi.toNat]? := by
  simp only [State.txData, hp, currentTerm_eq hi (by simp [hp])]
  rfl

/-- The byte presented, by phase: the init byte, or the byte at BI of the packet or of the terminator. -/
theorem txData_cases {s : State} {b : Byte} (hi : Inv s) (hb : s.txData = some b) :
    (s.ph = .init ∧ b = 0x00) ∨
    (s.ph = .pkt ∧ (positionBytes s)[s.bi.toNat]? = some b) ∨
    (s.ph = .term ∧ (termBytes s.cnt.toNat)[s.bi.toNat]? = some b) := by
  cases hp : s.ph with
  | init => exact .inl ⟨rfl, Option.some.inj (hb.symm.trans (txData_of_init hp))⟩
  | pkt => exact .inr (.inl ⟨rfl, (txData_of_pkt hi hp).symm.trans hb⟩)
  | term => exact .inr (.inr ⟨rfl, (txData_of_term hi hp).symm.trans hb⟩)
  | idle => simp [State.txData, hp] at hb
  | initGap => simp [State.txData, hp] at hb
  | pktGap => simp [State.txData, hp] at hb
  | msgGap => simp [State.txData, hp] at hb

/-- A step of a run finds a byte presented or an interval to wait out. -/
theorem presents_or_waits {s : State} (hi : Inv s) (hp : s.ph ≠ .idle) :
    (∃ b, s.txData = some b) ∨ (s.ph = .initGap ∨ s.ph = .pktGap ∨ s.ph = .msgGap) := by
  cases hph : s.ph with
  | idle => exact absurd hph hp
  | init => exact .inl ⟨_, txData_of_init hph⟩
  | pkt =>
    obtain ⟨hm, hbi, -⟩ := hi.pkt_position hph
    have hlt : s.bi.toNat < (positionBytes s).length := by rw [positionBytes_length hi hm]; omega
    exact .inl ⟨_, (txData_of_pkt hi hph).trans (List.getElem?_eq_getElem hlt)⟩
  | term =>
    have hbi := hi.term_position hph
    have hlt : s.bi.toNat < (termBytes s.cnt.toNat).length := by simp [termBytes, termInstr, encode]; omega
    exact .inl ⟨_, (txData_of_term hi hph).trans (List.getElem?_eq_getElem hlt)⟩
  | initGap => exact .inr (.inl rfl)
  | pktGap => exact .inr (.inr (.inl rfl))
  | msgGap => exact .inr (.inr (.inr rfl))

/-- The Write step of PKT at a position that has a byte is the write of that byte. -/
theorem exec_pkt_eq {tm : Byte} {c : BitVec 2} {payload : List Byte} {ck : Byte} {s : State} {b : Byte}
    (hb : pktByte tm c payload ck s.csum s.bi.toNat = some b) :
    exec (.pkt tm c payload ck) s = sinkWrite b (afterPktByte s.bi.toNat b) s := by
  simp only [exec, execPkt, hb]

/-- Where a run goes from `s` once the sink has taken byte `b` of the frame of its phase. -/
def afterWrite (s : State) (b : Byte) : State → State :=
  match s.ph with
  | .init => afterInit
  | .pkt => afterPktByte s.bi.toNat b
  | .term => afterTermByte s.bi.toNat
  | .idle | .initGap | .pktGap | .msgGap => id

/-- The step of a run that presents a byte is the write of that byte. -/
theorem step_presented {s : State} {b : Byte} (hi : Inv s) (hr : NoResetNow s) (hb : s.txData = some b) :
    step s = sinkWrite b (afterWrite s b) (sampled s) := by
  rcases txData_cases hi hb with ⟨hp, rfl⟩ | ⟨hp, hbyte⟩ | ⟨hp, hbyte⟩
  · rw [step_init hr hp, afterWrite, hp]
    rfl
  · obtain ⟨hm, -⟩ := hi.pkt_position hp
    rw [afterWrite, hp]
    exact (step_pkt hr hp (currentPkt_eq hi.sampled hm)).trans (exec_pkt_eq ((pktByte_eq hi hp).trans hbyte))
  · have hterm := currentTerm_eq hi.sampled (show s.ph ≠ .idle by simp [hp])
    rw [afterWrite, hp]
    exact (step_term hr hp hterm).trans (exec_term_eq hbyte)

/-! ### One move of a run -/

/-- A move of a run from `s` to `t`, past so many writes and intervals and taking no further input: it goes on from a
position with a meaning, emits the next events of `Seq` and no others, and ends with RES Ok. -/
structure Moves (s t : State) (bytes gaps : Nat) : Prop where
  position : positionInv t
  trace : ∃ more, t.trace = s.trace ++ more ∧ progress t = progress s ++ more
  ended : t.ph = .idle → t.res = .ok
  bytes_left : bytesLeft s = bytesLeft t + bytes
  gaps_left : gapsLeft s = gapsLeft t + gaps
  sink : t.sink = s.sink
  tick : t.tick = s.tick

section
variable {s : State}

/-- Entering a packet of an appended message is a position with a meaning: no byte of it is written yet. -/
theorem positionInv_startPacket {m : BitVec 3} (c : BitVec 2) (hm : m.toNat < s.cnt.toNat) :
    positionInv (s.startPacket m c) :=
  ⟨hm, Nat.zero_le _, fun h => absurd h (by simp)⟩

theorem progress_startPacket (m : BitVec 3) (c : BitVec 2) :
    progress (s.startPacket m c) =
      beforeMessage s m.toNat ++ packetsBefore s.cfg s.dly (slotBytes s.mb m.toNat) m.toNat c.toNat := by
  rw [progress_pkt (State.startPacket_ph ..)]
  exact List.append_nil _

/-! ### What a write moves (R143, R146, R149, R156) -/

theorem afterInit_moves (hi : Inv s) (hp : s.ph = .init) : Moves s (afterInit (s.deliver 0x00)) 1 0 := by
  obtain ⟨-, -, hcnt, -⟩ := hi.running (by simp [hp])
  have hinit := progress_init hp
  cases hd : s.cfg.delayAfterInit with
  | true =>
    have ht : afterInit (s.deliver 0x00) = (s.deliver 0x00).enterGap .initGap := if_pos hd
    rw [ht]
    refine ⟨hd, ⟨[.tx 0x00, .gap s.dly], List.append_assoc _ [_] [_], ?_⟩, nofun, ?_, ?_, rfl, rfl⟩
    · rw [hinit, progress_initGap rfl, State.enterGap_cfg, State.deliver_cfg, initEvents, hd]; rfl
    · simp [bytesLeft, hp, byteCount]
    · simp [gapsLeft, hp, gapCount, hd]
  | false =>
    have ht : afterInit (s.deliver 0x00) = (s.deliver 0x00).startPacket 0 0 := if_neg (by simp [hd])
    rw [ht]
    refine ⟨positionInv_startPacket _ hcnt, ⟨[.tx 0x00], rfl, ?_⟩, nofun, ?_, ?_, rfl, rfl⟩
    · rw [hinit, progress_startPacket, beforeMessage, State.deliver_cfg, initEvents, hd]; rfl
    · simp [bytesLeft, hp, byteCount]
    · simp [gapsLeft, hp, gapCount, hd]

/-- The accumulator takes in the byte written, unless it is byte 0, which the sum leaves out (R125). -/
theorem accumulate_agrees {P : List Byte} {k : Nat} {csum b : Byte} (hb : P[k]? = some b) (hk : k ≤ 67)
    (h : 1 ≤ k → csum = byteSum ((P.take k).drop 1)) :
    accumulate k csum b = byteSum ((P.take (k + 1)).drop 1) := by
  rcases Nat.eq_zero_or_pos k with rfl | hpos
  · simp [accumulate, byteSum]
  · have hlt : k < P.length := (List.getElem?_eq_some_iff.1 hb).1
    have hlen : 1 ≤ (P.take k).length := by rw [List.length_take]; omega
    rw [accumulate, if_neg (by omega), if_pos hk, h hpos, List.take_add_one, hb, Option.toList_some,
      List.drop_append_of_le_length hlen, byteSum_append]
    simp [byteSum]

/-- Byte 68 ends the packet: the gap after it begins. -/
theorem afterPktByte_moves_last {b : Byte} (hi : Inv s) (hp : s.ph = .pkt) (h68 : s.bi.toNat = 68)
    (hb : (positionBytes s)[s.bi.toNat]? = some b) : Moves s ((s.deliver b).enterGap .pktGap) 1 0 := by
  obtain ⟨hm, -⟩ := hi.pkt_position hp
  have hci := s.ci.isLt
  have hlast : txAll (positionBytes s) = txAll ((positionBytes s).take s.bi.toNat) ++ [.tx b] :=
    txAll_eq_of_last (by rw [positionBytes_length hi hm, h68]) hb
  refine ⟨hm, ⟨[.tx b, .gap s.dly], List.append_assoc _ [_] [_], ?_⟩, nofun, ?_, ?_, rfl, rfl⟩
  · rw [progress_pkt hp, progress_pktGap rfl, packetsBefore_succ, pktEvents]
    change beforeMessage s s.mi.toNat ++ (_ ++ (txAll (positionBytes s) ++ [.gap s.dly])) = _
    simp [hlast]
  · simp [bytesLeft, hp]; omega
  · simp [gapsLeft, hp]

/-- Before byte 68 the accumulator and BI take in the byte written. -/
theorem afterPktByte_moves_next {b : Byte} (hi : Inv s) (hp : s.ph = .pkt) (h67 : s.bi.toNat ≤ 67)
    (hb : (positionBytes s)[s.bi.toNat]? = some b) :
    Moves s { s.deliver b with csum := accumulate s.bi.toNat s.csum b, bi := s.bi + 1 } 1 0 := by
  obtain ⟨hm, -, hcsum⟩ := hi.pkt_position hp
  have hci := s.ci.isLt
  have hbi : (s.bi + 1).toNat = s.bi.toNat + 1 := BitVec.toNat_add_of_lt (show s.bi.toNat + 1 < 2 ^ 7 by omega)
  refine ⟨?_, ⟨[.tx b], rfl, ?_⟩, fun h => ?_, ?_, ?_, rfl, rfl⟩
  · have hsum : accumulate s.bi.toNat s.csum b = byteSum (((positionBytes s).take (s.bi + 1).toNat).drop 1) :=
      hbi ▸ accumulate_agrees hb h67 hcsum
    simp only [positionInv, State.deliver_ph, hp]
    exact ⟨hm, by rw [hbi]; omega, fun _ => hsum⟩
  · calc progress _
      _ = beforeMessage s s.mi.toNat
            ++ packetsBefore s.cfg s.dly (slotBytes s.mb s.mi.toNat) s.mi.toNat s.ci.toNat
            ++ txAll ((positionBytes s).take (s.bi + 1).toNat) := by
        refine progress_pkt ?_; exact hp
      _ = progress s ++ [.tx b] := by
        rw [hbi, txAll_take_succ hb, ← List.append_assoc, progress_pkt hp]
  · cases hp.symm.trans h
  · simp [bytesLeft, hp]; omega
  · simp [gapsLeft, hp]

theorem afterTermByte_moves {b : Byte} (hi : Inv s) (hp : s.ph = .term)
    (hb : (termBytes s.cnt.toNat)[s.bi.toNat]? = some b) : Moves s (afterTermByte s.bi.toNat (s.deliver b)) 1 0 := by
  have hle := hi.term_position hp
  by_cases h2 : s.bi.toNat = 2
  · have ht : afterTermByte s.bi.toNat (s.deliver b) = finishRun (s.deliver b) := if_pos h2
    rw [ht]
    refine ⟨trivial, ⟨[.tx b], rfl, ?_⟩, fun _ => rfl, ?_, ?_, rfl, rfl⟩
    · rw [progress_term hp, progress_idle rfl, finishRun_cnt, State.deliver_cnt, txAll_eq_of_last (by rw [h2]; rfl) hb,
        ← List.append_assoc]
      rfl
    · simp [bytesLeft, hp, h2]
    · simp [gapsLeft, hp]
  · have ht : afterTermByte s.bi.toNat (s.deliver b) = { s.deliver b with bi := s.bi + 1 } := if_neg h2
    have hbi : (s.bi + 1).toNat = s.bi.toNat + 1 := BitVec.toNat_add_of_lt (show s.bi.toNat + 1 < 2 ^ 7 by omega)
    rw [ht]
    refine ⟨?_, ⟨[.tx b], rfl, ?_⟩, fun h => ?_, ?_, ?_, rfl, rfl⟩
    · simp only [positionInv, State.deliver_ph, hp, hbi]; omega
    · calc progress _
        _ = beforeMessage s s.cnt.toNat ++ txAll ((termBytes s.cnt.toNat).take (s.bi + 1).toNat) := by
          refine progress_term ?_; exact hp
        _ = progress s ++ [.tx b] := by
          rw [hbi, txAll_take_succ hb, ← List.append_assoc, progress_term hp]
    · cases hp.symm.trans h
    · simp [bytesLeft, hp]; omega
    · simp [gapsLeft, hp]

/-- The sink takes the byte presented: the run moves past one write. -/
theorem afterWrite_moves {b : Byte} (hi : Inv s) (hb : s.txData = some b) :
    Moves s (afterWrite s b (s.deliver b)) 1 0 := by
  rcases txData_cases hi hb with ⟨hp, rfl⟩ | ⟨hp, hbyte⟩ | ⟨hp, hbyte⟩
  · rw [afterWrite, hp]
    exact afterInit_moves hi hp
  · obtain ⟨-, hbi, -⟩ := hi.pkt_position hp
    have hw : afterWrite s b = afterPktByte s.bi.toNat b := by rw [afterWrite, hp]
    rw [hw, afterPktByte]
    split
    next h68 => exact afterPktByte_moves_last hi hp h68 hbyte
    next h68 => exact afterPktByte_moves_next hi hp (by omega) hbyte
  · rw [afterWrite, hp]
    exact afterTermByte_moves hi hp hbyte

/-! ### What the end of an interval moves (R144, R147, R148) -/

theorem elapse_moves_initGap (hi : Inv s) (hp : s.ph = .initGap) : Moves s (s.startPacket 0 0) 0 1 := by
  obtain ⟨-, -, hcnt, -⟩ := hi.running (by simp [hp])
  refine ⟨positionInv_startPacket _ hcnt, ⟨[], (List.append_nil _).symm, ?_⟩, nofun, ?_, ?_, rfl, rfl⟩
  · rw [progress_startPacket, progress_initGap hp, beforeMessage]
    simp [messagesEvents, packetsBefore]
  · simp [bytesLeft, hp]
  · simp [gapsLeft, hp]

theorem elapse_moves_pktGap (hi : Inv s) (hp : s.ph = .pktGap) :
    Moves s (if s.ci.toNat < 3 then s.startPacket s.mi (s.ci + 1) else s.enterGap .msgGap) 0 1 := by
  have hm : s.mi.toNat < s.cnt.toNat := by have h := hi.position; rwa [positionInv, hp] at h
  split
  next h3 =>
    have hci : (s.ci + 1).toNat = s.ci.toNat + 1 := BitVec.toNat_add_of_lt (show s.ci.toNat + 1 < 2 ^ 2 by omega)
    refine ⟨positionInv_startPacket _ hm, ⟨[], (List.append_nil _).symm, ?_⟩, nofun, ?_, ?_, rfl, rfl⟩
    · rw [progress_startPacket, progress_pktGap hp, hci, List.append_nil]
    · simp [bytesLeft, hp]; omega
    · simp [gapsLeft, hp]; omega
  next h3 =>
    have hci : s.ci.toNat = 3 := by have := s.ci.isLt; omega
    refine ⟨hm, ⟨[.gap s.dly], rfl, ?_⟩, nofun, ?_, ?_, rfl, rfl⟩
    · rw [progress_msgGap rfl, progress_pktGap hp, hci, beforeMessage, messagesEvents_succ, ← List.append_assoc,
        ← List.append_assoc]
      rfl
    · simp [bytesLeft, hp, hci]; omega
    · simp [gapsLeft, hp, hci]; omega

theorem elapse_moves_msgGap (hi : Inv s) (hp : s.ph = .msgGap) :
    Moves s (if s.mi.toNat + 1 < s.cnt.toNat then s.startPacket (s.mi + 1) 0 else s.enterTerm) 0 1 := by
  have hm : s.mi.toNat < s.cnt.toNat := by have h := hi.position; rwa [positionInv, hp] at h
  split
  next hlt =>
    have hmi : (s.mi + 1).toNat = s.mi.toNat + 1 := by
      have := s.cnt.isLt
      exact BitVec.toNat_add_of_lt (show s.mi.toNat + 1 < 2 ^ 3 by omega)
    refine ⟨positionInv_startPacket _ (hmi ▸ hlt), ⟨[], (List.append_nil _).symm, ?_⟩, nofun, ?_, ?_, rfl, rfl⟩
    · rw [progress_startPacket, progress_msgGap hp, hmi]
      rfl
    · simp [bytesLeft, hp]; omega
    · simp [gapsLeft, hp]; omega
  next hlt =>
    have hcnt : s.cnt.toNat = s.mi.toNat + 1 := by omega
    refine ⟨Nat.zero_le _, ⟨[], (List.append_nil _).symm, ?_⟩, nofun, ?_, ?_, rfl, rfl⟩
    · rw [progress_term rfl, progress_msgGap hp, State.enterTerm_cnt, hcnt]
      rfl
    · simp [bytesLeft, hp, hcnt]
    · simp [gapsLeft, hp, hcnt]

/-- The interval ends: the run moves past it. -/
theorem elapse_moves (hi : Inv s) (hg : s.ph = .initGap ∨ s.ph = .pktGap ∨ s.ph = .msgGap) :
    Moves s (elapse s) 0 1 := by
  rcases hg with hp | hp | hp <;> rw [elapse, hp]
  · exact elapse_moves_initGap hi hp
  · exact elapse_moves_pktGap hi hp
  · exact elapse_moves_msgGap hi hp

end

end Sys2Proof.Machine
end

section
/-! The steps of a run (42_transmit_sequencer.md R140 to R156): each keeps the message list and the invariant and moves
the run on; a run with every write answered `ok` emits `Seq`, and every run that is answered ends. -/

namespace Sys2Proof.Machine

open Sys2Proof

/-! ### What every step of a run keeps (R155) -/

theorem NoReset.now {s : State} (h : NoReset s) : NoResetNow s := by
  intro d r hr
  cases h (.high d) (by simp [hr])

theorem NoReset.of_keeps {s t : State} (h : NoReset s) (k : Keeps (sampled s) t) : NoReset t := by
  intro x hx
  rw [k.rst] at hx
  exact h x (List.mem_of_mem_tail hx)

/-- A step of a run writes only the sequencer's registers, RES, the trace and the inputs it takes. -/
theorem run_step_keeps {s t : State} (hp : s.ph ≠ .idle) (hr : NoResetNow s) (h : step s = .next t) :
    Keeps (sampled s) t := by
  rcases step_cases h with ⟨d, r, hrst, -⟩ | ⟨-, hcase⟩
  · exact absurd hrst (hr d r)
  · rcases hcase with ⟨hidle, -⟩ | ⟨hidle, -⟩ | ⟨-, hw⟩ | ⟨-, i, hc, hw⟩ | ⟨-, i, hc, hw⟩ | ⟨-, rfl⟩
    · exact absurd hidle hp
    · exact absurd hidle hp
    · exact exec_frame_keeps (i := .init) rfl hw
    · exact exec_frame_keeps (currentPkt_space hc) hw
    · exact exec_frame_keeps (currentTerm_space hc) hw
    · exact awaitElapse_keeps _

/-- The invariant of a run is its list's, which is kept, and its position's. -/
theorem Inv.of_keeps {s t : State} (hi : Inv s) (hp : s.ph ≠ .idle) (k : Keeps s t) (hpos : positionInv t) : Inv t := by
  obtain ⟨hv, he, hc, hx⟩ := hi.running hp
  exact {
    store_wf := by rw [k.mb]; exact hi.store_wf
    store_bound := by rw [k.mb, k.cfg]; exact hi.store_bound
    cnt_le := by rw [k.cnt, k.cfg]; exact hi.cnt_le
    slots := by rw [k.mb, k.cnt]; exact hi.slots
    rx_open := by rw [k.rx]; exact hi.rx_open
    running := fun ht => ⟨k.verr.trans hv, (k.res ht).trans he, by rw [k.cnt]; exact hc, k.rx.trans hx⟩
    position := hpos }

/-! ### The steps of a run -/

/-- A step of a run from `s` to `t` that leaves the answers `r` and the readings `q` to come and moves the run past so
many writes and intervals. -/
structure Advances (s t : State) (r : List SinkAnswer) (q : List Nat) (bytes gaps : Nat) : Prop where
  step : step s = .next t
  keeps : Keeps (sampled s) t
  inv : Inv t
  moves : Moves { sampled s with sink := r, tick := q } t bytes gaps

section
variable {s : State}

theorem advances_of_moves {t : State} {r : List SinkAnswer} {q : List Nat} {bytes gaps : Nat} (hi : Inv s)
    (hp : s.ph ≠ .idle) (hr : NoResetNow s) (h : step s = .next t)
    (hm : Moves { sampled s with sink := r, tick := q } t bytes gaps) : Advances s t r q bytes gaps :=
  have hk := run_step_keeps hp hr h
  ⟨h, hk, hi.sampled.of_keeps hp hk hm.position, hm⟩

/-- The sink takes the byte presented. -/
theorem step_write_ok {b : Byte} {r : List SinkAnswer} (hi : Inv s) (hp : s.ph ≠ .idle) (hr : NoResetNow s)
    (hb : s.txData = some b) (hs : s.sink = .ok :: r) : ∃ t, Advances s t r s.tick 1 0 :=
  ⟨_, advances_of_moves hi hp hr ((step_presented hi hr hb).trans (sinkWrite_ok b _ hs))
    (afterWrite_moves (hi.inputs r s.tick _) hb)⟩

/-- The sink fails the byte presented: the run is over. -/
theorem step_write_fail {b : Byte} {r : List SinkAnswer} (hi : Inv s) (hr : NoResetNow s) (hb : s.txData = some b)
    (hs : s.sink = .fail :: r) : ∃ t, step s = .next t ∧ t.ph = .idle ∧ t.res = .ioError :=
  ⟨_, (step_presented hi hr hb).trans (sinkWrite_fail b _ hs), rfl, rfl⟩

/-- What a step in an interval does, by the reading it finds: none; one below DLY; or, with DLY = 0, none needed, and
one of at least DLY. -/
theorem step_gap_cases (hi : Inv s) (hr : NoResetNow s) (hg : s.ph = .initGap ∨ s.ph = .pktGap ∨ s.ph = .msgGap) :
    (s.dly ≠ 0 ∧ s.tick = []) ∨
    (∃ m q t, s.tick = m :: q ∧ m < s.dly.toNat ∧ Advances s t s.sink q 0 0) ∨
    (∃ q t, (s.dly = 0 ∧ q = s.tick ∨ s.dly ≠ 0 ∧ ∃ m, s.tick = m :: q ∧ s.dly.toNat ≤ m) ∧
      Advances s t s.sink q 0 1) := by
  have hp : s.ph ≠ .idle := by rcases hg with h | h | h <;> simp [h]
  have hstep := step_gap hr hg
  rcases awaitElapse_cases (sampled s) with ⟨hd, ht, -⟩ | ⟨m, q, ht, hm, h⟩ | ⟨q, hq, h⟩
  · exact .inl ⟨hd, ht⟩
  · rw [h] at hstep
    exact .inr (.inl ⟨m, q, _, ht, hm, advances_of_moves hi hp hr hstep
      ⟨hi.position, ⟨[], (List.append_nil _).symm, (List.append_nil _).symm⟩, fun hidle => absurd hidle hp, rfl, rfl,
        rfl, rfl⟩⟩)
  · rw [h] at hstep
    exact .inr (.inr ⟨q, _, hq, advances_of_moves hi hp hr hstep (elapse_moves (hi.inputs s.sink q _) hg)⟩)

/-- A run has its last byte yet to write. -/
theorem bytesLeft_pos (hi : Inv s) (hp : s.ph ≠ .idle) : 0 < bytesLeft s := by
  have hci := s.ci.isLt
  have hpos := hi.position
  cases hph : s.ph with
  | idle => exact absurd hph hp
  | init => simp [bytesLeft, hph, byteCount]
  | initGap => simp [bytesLeft, hph]
  | pkt => obtain ⟨hm, hbi, -⟩ := hi.pkt_position hph; simp only [bytesLeft, hph]; omega
  | pktGap => rw [positionInv, hph] at hpos; simp only [bytesLeft, hph]; omega
  | msgGap => simp [bytesLeft, hph]
  | term => have hbi := hi.term_position hph; simp only [bytesLeft, hph]; omega

theorem gapsLeft_pos (hi : Inv s) (hg : s.ph = .initGap ∨ s.ph = .pktGap ∨ s.ph = .msgGap) : 0 < gapsLeft s := by
  rw [(elapse_moves hi hg).gaps_left]
  exact Nat.succ_pos _

end

/-! ### A run with every write answered `ok` (R140, R156) -/

theorem steps_succ {s t : State} (n : Nat) (h : step s = .next t) : steps (n + 1) s = steps n t := by
  rw [steps, h]

/-- The readings `gaps` end `n` intervals in `k` steps; with DLY = 0 there are none, and a step for each interval. -/
def EndsIn (d : BitVec 16) (gaps : List Nat) (n k : Nat) : Prop :=
  d = 0 ∧ gaps = [] ∧ k = n ∨ d ≠ 0 ∧ endsIntervals d gaps n ∧ k = gaps.length

section
variable {d : BitVec 16} {gaps readings q : List Nat} {m n k : Nat}

theorem EndsIn.of_zero (h : EndsIn d gaps 0 k) : gaps = [] ∧ k = 0 := by
  rcases h with ⟨-, rfl, rfl⟩ | ⟨-, hends, rfl⟩
  · exact ⟨rfl, rfl⟩
  · cases gaps with
    | nil => exact ⟨rfl, rfl⟩
    | cons m l => exact hends.elim

/-- An interval of more than 0 milliseconds takes a reading. -/
theorem EndsIn.exists_cons (h : EndsIn d gaps (n + 1) k) (hd : d ≠ 0) :
    ∃ m l, gaps = m :: l ∧ k = l.length + 1 ∧ endsIntervals d (m :: l) (n + 1) := by
  obtain ⟨hends, rfl⟩ : endsIntervals d gaps (n + 1) ∧ k = gaps.length := (h.resolve_left fun h0 => hd h0.1).2
  cases gaps with
  | nil => cases hends
  | cons m l => exact ⟨m, l, rfl, rfl, hends⟩

/-- A reading below DLY takes a step and ends no interval. -/
theorem EndsIn.short (h : EndsIn d gaps (n + 1) k) (ht : gaps ++ readings = m :: q) (hm : m < d.toNat) :
    ∃ gaps' k', q = gaps' ++ readings ∧ EndsIn d gaps' (n + 1) k' ∧ k = k' + 1 := by
  have hd : d ≠ 0 := by rintro rfl; simp at hm
  obtain ⟨m', l, rfl, rfl, hends⟩ := h.exists_cons hd
  obtain ⟨rfl, rfl⟩ : m' = m ∧ l ++ readings = q := by simpa using ht
  rw [endsIntervals, if_pos hm] at hends
  exact ⟨l, _, rfl, .inr ⟨hd, hends, rfl⟩, rfl⟩

/-- The step that ends an interval leaves the others. -/
theorem EndsIn.reached (h : EndsIn d gaps (n + 1) k)
    (hq : d = 0 ∧ q = gaps ++ readings ∨ d ≠ 0 ∧ ∃ m, gaps ++ readings = m :: q ∧ d.toNat ≤ m) :
    ∃ gaps' k', q = gaps' ++ readings ∧ EndsIn d gaps' n k' ∧ k = k' + 1 := by
  rcases hq with ⟨hd, rfl⟩ | ⟨hd, m, ht, hm⟩
  · obtain ⟨-, rfl, rfl⟩ := h.resolve_right fun h1 => h1.1 hd
    exact ⟨[], n, rfl, .inl ⟨hd, rfl, rfl⟩, rfl⟩
  · obtain ⟨m', l, rfl, rfl, hends⟩ := h.exists_cons hd
    obtain ⟨rfl, rfl⟩ : m' = m ∧ l ++ readings = q := by simpa using ht
    rw [endsIntervals, if_neg (Nat.not_lt_of_le hm)] at hends
    exact ⟨l, _, rfl, .inr ⟨hd, hends, rfl⟩, rfl⟩

end

/-- The run that began in `o` is at `s`, its trace the piece of `Seq` for its position, and the sink and the timebase
answer so that it is over after exactly `left` steps, with `answers` and `readings` untouched. -/
structure Succeeding (o : State) (answers : List SinkAnswer) (readings : List Nat) (s : State) (left : Nat) : Prop where
  inv : Inv s
  noReset : NoReset s
  mb : s.mb = o.mb
  cnt : s.cnt = o.cnt
  dly : s.dly = o.dly
  verr : s.verr = o.verr
  cfg : s.cfg = o.cfg
  cmd : s.cmd = o.cmd
  trace : s.trace = o.trace ++ progress s
  ended : s.ph = .idle → s.res = .ok
  sink : s.sink = List.replicate (bytesLeft s) .ok ++ answers
  tick : ∃ gaps k, s.tick = gaps ++ readings ∧ EndsIn s.dly gaps (gapsLeft s) k ∧ left = bytesLeft s + k

section
variable {o s t : State} {answers r : List SinkAnswer} {readings q : List Nat} {left bytes gaps : Nat}

/-- A step that moves the run on keeps it succeeding if the inputs left fit the new position. -/
theorem Succeeding.advance {left' : Nat} (h : Succeeding o answers readings s left) (a : Advances s t r q bytes gaps)
    (hsink : r = List.replicate (bytesLeft t) .ok ++ answers)
    (htick : ∃ gs k, q = gs ++ readings ∧ EndsIn s.dly gs (gapsLeft t) k ∧ left' = bytesLeft t + k) :
    Succeeding o answers readings t left' := by
  obtain ⟨more, htr, hpr⟩ := a.moves.trace
  have hdly : t.dly = s.dly := a.keeps.dly
  exact {
    inv := a.inv
    noReset := h.noReset.of_keeps a.keeps
    mb := a.keeps.mb.trans h.mb
    cnt := a.keeps.cnt.trans h.cnt
    dly := a.keeps.dly.trans h.dly
    verr := a.keeps.verr.trans h.verr
    cfg := a.keeps.cfg.trans h.cfg
    cmd := a.keeps.cmd.trans h.cmd
    trace := by
      rw [hpr, ← List.append_assoc, htr]
      exact congrArg (· ++ more) h.trace
    ended := a.moves.ended
    sink := a.moves.sink.trans hsink
    tick := by rw [hdly, a.moves.tick]; exact htick }

theorem Succeeding.step (h : Succeeding o answers readings s (left + 1)) :
    ∃ t, step s = .next t ∧ Succeeding o answers readings t left := by
  obtain ⟨gs, k, htick, hends, hleft⟩ := h.tick
  have hp : s.ph ≠ .idle := by
    intro hidle
    have hg : gapsLeft s = 0 := by simp [gapsLeft, hidle]
    have hb : bytesLeft s = 0 := by simp [bytesLeft, hidle]
    have hk := (EndsIn.of_zero (hg ▸ hends)).2
    omega
  rcases presents_or_waits h.inv hp with ⟨b, hb⟩ | hg
  · obtain ⟨n, hn⟩ := Nat.exists_eq_succ_of_ne_zero (bytesLeft_pos h.inv hp).ne'
    have hs : s.sink = .ok :: (List.replicate n .ok ++ answers) := by rw [h.sink, hn]; rfl
    obtain ⟨t, a⟩ := step_write_ok h.inv hp h.noReset.now hb hs
    have hbytes : bytesLeft s = bytesLeft t + 1 := a.moves.bytes_left
    have hgaps : gapsLeft s = gapsLeft t := a.moves.gaps_left
    obtain rfl : n = bytesLeft t := by omega
    exact ⟨t, a.step, h.advance a rfl ⟨gs, k, htick, hgaps ▸ hends, by omega⟩⟩
  · obtain ⟨n, hn⟩ := Nat.exists_eq_succ_of_ne_zero (gapsLeft_pos h.inv hg).ne'
    rw [hn] at hends
    rcases step_gap_cases h.inv h.noReset.now hg with ⟨hd, ht⟩ | ⟨m, q, t, ht, hm, a⟩ | ⟨q, t, hq, a⟩
    · obtain ⟨m, l, rfl, -⟩ := hends.exists_cons hd
      simp [htick] at ht
    · have hbytes : bytesLeft s = bytesLeft t := a.moves.bytes_left
      have hgaps : gapsLeft s = gapsLeft t := a.moves.gaps_left
      obtain ⟨gs', k', hq, hends', rfl⟩ := hends.short (htick ▸ ht) hm
      refine ⟨t, a.step, h.advance a (hbytes ▸ h.sink) ⟨gs', k', hq, ?_, by omega⟩⟩
      rwa [← hgaps, hn]
    · have hbytes : bytesLeft s = bytesLeft t := a.moves.bytes_left
      have hgaps : gapsLeft s = gapsLeft t + 1 := a.moves.gaps_left
      obtain ⟨gs', k', hq', hends', rfl⟩ := hends.reached (htick ▸ hq)
      obtain rfl : n = gapsLeft t := by omega
      exact ⟨t, a.step, h.advance a (hbytes ▸ h.sink) ⟨gs', k', hq', hends', by omega⟩⟩

theorem Succeeding.steps (h : Succeeding o answers readings s left) :
    ∃ t, steps left s = .next t ∧ Succeeding o answers readings t 0 := by
  induction left generalizing s with
  | zero => exact ⟨s, rfl, h⟩
  | succ n ih =>
    obtain ⟨u, hstep, hu⟩ := h.step
    obtain ⟨t, ht, h0⟩ := ih hu
    exact ⟨t, (steps_succ n hstep).trans ht, h0⟩

/-- With no step left the run is over, and it has emitted the whole of `Seq`. -/
theorem Succeeding.result (h : Succeeding o answers readings s 0) :
    s.ph = .idle ∧ s.trace = o.trace ++ fullSeq o ∧ s.sink = answers ∧ s.tick = readings := by
  obtain ⟨gs, k, htick, hends, hleft⟩ := h.tick
  have hidle : s.ph = .idle := by
    by_contra hp
    have hpos := bytesLeft_pos h.inv hp
    omega
  have hg : gapsLeft s = 0 := by simp [gapsLeft, hidle]
  have hb : bytesLeft s = 0 := by simp [bytesLeft, hidle]
  obtain ⟨rfl, -⟩ := EndsIn.of_zero (hg ▸ hends)
  have hseq : progress s = fullSeq o := by
    rw [progress, if_pos hidle, fullSeq, fullSeq, h.mb, h.cnt, h.dly, h.cfg]
  refine ⟨hidle, hseq ▸ h.trace, ?_, htick⟩
  simpa [hb] using h.sink

end

/-- The state in which a run begins: TRANSMIT taken, nothing written. -/
def started (s : State) (rest : List Byte) : State :=
  { sampled s with rx := [], cmd := rest, res := .none, ph := .init }

theorem step_transmit {s : State} {rest : List Byte} (hr : NoResetNow s) (hp : s.ph = .idle) (hv : s.verr = .none)
    (hc : 1 ≤ s.cnt.toNat) (hd : s.rx ++ s.cmd = 0x04 :: rest) : step s = .next (started s rest) := by
  rw [step_command hr hp (hd ▸ decodeCommand_transmit rest)]
  exact exec_transmit_starts hv (cnt_ne_zero hc)

theorem started_inv {s : State} (rest : List Byte) (hi : Inv s) (hv : s.verr = .none) (hc : 1 ≤ s.cnt.toNat) :
    Inv (started s rest) :=
  ⟨hi.store_wf, hi.store_bound, hi.cnt_le, hi.slots, rfl, fun _ => ⟨hv, rfl, hc, rfl⟩, trivial⟩

/-- Settles O49: TRANSMIT starts a run that succeeds in one step for each byte and each reading. -/
theorem successfulRunEmitsSeq : Obligations.SuccessfulRunEmitsSeq := by
  rintro s rest answers gaps readings _ k hi hr hp hv hc hd hs rfl ht hends
  have hstart : Succeeding (started s rest) answers readings (started s rest) (byteCount s.cnt.toNat + k) := {
    inv := started_inv rest hi hv hc
    noReset := fun x hx => hr x (List.mem_of_mem_tail hx)
    mb := rfl
    cnt := rfl
    dly := rfl
    verr := rfl
    cfg := rfl
    cmd := rfl
    trace := (List.append_nil _).symm
    ended := nofun
    sink := hs
    tick := ⟨gaps, k, ht, hends, rfl⟩ }
  obtain ⟨t, hsteps, h0⟩ := hstart.steps
  obtain ⟨hidle, htrace, hsink, htick⟩ := h0.result
  refine ⟨t, ?_, htrace, h0.ended hidle, hidle, h0.mb, h0.cnt, h0.dly, h0.verr.trans hv, h0.cmd, hsink, htick⟩
  rw [Nat.add_assoc, Nat.add_comm 1, steps_succ _ (step_transmit hr.now hp hv hc hd)]
  exact hsteps

/-! ### Every run ends (R154, R219) -/

/-- How many of the readings do not reach DLY. -/
def shortReadings (d : BitVec 16) (l : List Nat) : Nat := (l.filter (fun m => m < d.toNat)).length

/-- How many of the readings reach DLY. -/
def longReadings (d : BitVec 16) (l : List Nat) : Nat := (l.filter (fun m => d.toNat ≤ m)).length

section
variable {d : BitVec 16} {m : Nat} (l : List Nat)

theorem readings_cons_of_short (h : m < d.toNat) :
    shortReadings d (m :: l) = shortReadings d l + 1 ∧ longReadings d (m :: l) = longReadings d l := by
  simp [shortReadings, longReadings, h]

theorem readings_cons_of_long (h : d.toNat ≤ m) :
    shortReadings d (m :: l) = shortReadings d l ∧ longReadings d (m :: l) = longReadings d l + 1 := by
  simp [shortReadings, longReadings, h]

end

/-- The sink has an answer for every byte a run has yet to write, and the timebase a reading of at least DLY for every
interval it has yet to wait out, unless DLY = 0; and a run that is over has ended well. -/
structure Supplied (s : State) : Prop where
  inv : Inv s
  noReset : NoReset s
  ended : s.ph = .idle → s.res = .ok
  sink : bytesLeft s ≤ s.sink.length
  tick : s.dly = 0 ∨ gapsLeft s ≤ longReadings s.dly s.tick

/-- A bound on the steps a run has yet to make. -/
def stepsLeft (s : State) : Nat := bytesLeft s + gapsLeft s + shortReadings s.dly s.tick

theorem Supplied.advance {s t : State} {r : List SinkAnswer} {q : List Nat} {bytes gaps : Nat} (h : Supplied s)
    (a : Advances s t r q bytes gaps) (hsink : bytesLeft t ≤ r.length)
    (htick : s.dly = 0 ∨ gapsLeft t ≤ longReadings s.dly q) : Supplied t := by
  have hdly : t.dly = s.dly := a.keeps.dly
  exact {
    inv := a.inv
    noReset := h.noReset.of_keeps a.keeps
    ended := a.moves.ended
    sink := by rw [a.moves.sink]; exact hsink
    tick := by rw [hdly, a.moves.tick]; exact htick }

theorem Advances.stepsLeft {s t : State} {r : List SinkAnswer} {q : List Nat} {bytes gaps : Nat}
    (a : Advances s t r q bytes gaps) : stepsLeft t = bytesLeft t + gapsLeft t + shortReadings s.dly q := by
  have hdly : t.dly = s.dly := a.keeps.dly
  rw [Machine.stepsLeft, hdly, a.moves.tick]

/-- A step of a run that is supplied ends it at a failed write, or uses up a step and leaves it supplied. -/
theorem Supplied.step {s : State} (h : Supplied s) (hp : s.ph ≠ .idle) :
    ∃ t, step s = .next t ∧
      (t.ph = .idle ∧ t.res = .ioError ∨ Supplied t ∧ stepsLeft t + 1 ≤ stepsLeft s) := by
  have hpos := bytesLeft_pos h.inv hp
  have hsink := h.sink
  rcases presents_or_waits h.inv hp with ⟨b, hb⟩ | hg
  · cases hs : s.sink with
    | nil => rw [hs, List.length_nil] at hsink; omega
    | cons answer r =>
      rw [hs, List.length_cons] at hsink
      cases answer with
      | fail =>
        obtain ⟨t, hstep, hend⟩ := step_write_fail h.inv h.noReset.now hb hs
        exact ⟨t, hstep, .inl hend⟩
      | ok =>
        obtain ⟨t, a⟩ := step_write_ok h.inv hp h.noReset.now hb hs
        have hbytes : bytesLeft s = bytesLeft t + 1 := a.moves.bytes_left
        have hgaps : gapsLeft s = gapsLeft t := a.moves.gaps_left
        refine ⟨t, a.step, .inr ⟨h.advance a (by omega) (hgaps ▸ h.tick), ?_⟩⟩
        rw [a.stepsLeft, stepsLeft]; omega
  · have hgpos := gapsLeft_pos h.inv hg
    rcases step_gap_cases h.inv h.noReset.now hg with ⟨hd, ht⟩ | ⟨m, q, t, ht, hm, a⟩ | ⟨q, t, hq, a⟩
    · have hlong := h.tick.resolve_left hd
      rw [ht] at hlong
      exact absurd hlong (Nat.not_le_of_lt hgpos)
    · have hbytes : bytesLeft s = bytesLeft t := a.moves.bytes_left
      have hgaps : gapsLeft s = gapsLeft t := a.moves.gaps_left
      obtain ⟨hshort, hlong⟩ := readings_cons_of_short q hm
      have htick := h.tick
      rw [ht, hlong, hgaps] at htick
      refine ⟨t, a.step, .inr ⟨h.advance a (hbytes ▸ hsink) htick, ?_⟩⟩
      rw [a.stepsLeft, stepsLeft, ht, hshort]; omega
    · have hbytes : bytesLeft s = bytesLeft t := a.moves.bytes_left
      have hgaps : gapsLeft s = gapsLeft t + 1 := a.moves.gaps_left
      have hreadings : shortReadings s.dly q = shortReadings s.dly s.tick ∧
          (s.dly = 0 ∨ gapsLeft t ≤ longReadings s.dly q) := by
        rcases hq with ⟨hd, rfl⟩ | ⟨hd, m, ht, hm⟩
        · exact ⟨rfl, .inl hd⟩
        · obtain ⟨hshort, hlong⟩ := readings_cons_of_long q hm
          have henough := h.tick.resolve_left hd
          rw [ht, hlong] at henough
          exact ⟨ht ▸ hshort.symm, .inr (by omega)⟩
      obtain ⟨hshort, htick⟩ := hreadings
      refine ⟨t, a.step, .inr ⟨h.advance a (hbytes ▸ hsink) htick, ?_⟩⟩
      rw [a.stepsLeft, stepsLeft, hshort]; omega

theorem Supplied.ends {s : State} (h : Supplied s) :
    ∃ k ≤ stepsLeft s, ∃ t, steps k s = .next t ∧ t.ph = .idle ∧ (t.res = .ok ∨ t.res = .ioError) := by
  induction hn : stepsLeft s using Nat.strong_induction_on generalizing s with
  | _ n ih =>
    subst hn
    by_cases hp : s.ph = .idle
    · exact ⟨0, Nat.zero_le _, s, rfl, hp, .inl (h.ended hp)⟩
    · obtain ⟨u, hstep, ⟨hidle, hres⟩ | ⟨hu, hless⟩⟩ := h.step hp
      · have hpos := bytesLeft_pos h.inv hp
        exact ⟨1, by rw [stepsLeft]; omega, u, steps_succ 0 hstep, hidle, .inr hres⟩
      · obtain ⟨k, hk, t, ht, hend⟩ := ih _ hless hu rfl
        exact ⟨k + 1, by omega, t, (steps_succ k hstep).trans ht, hend⟩

/-- No run has more to do than one of six messages at its start (R151). -/
theorem bytesLeft_le {s : State} (hi : Inv s) : bytesLeft s ≤ 1660 := by
  have hcnt := hi.cnt_le
  have hmax := maxMessages_le s.cfg
  unfold bytesLeft byteCount
  split <;> omega

theorem gapsLeft_le {s : State} (hi : Inv s) : gapsLeft s ≤ 31 := by
  have hcnt := hi.cnt_le
  have hmax := maxMessages_le s.cfg
  have hinit : (if s.cfg.delayAfterInit then 1 else 0) ≤ 1 := by split <;> decide
  unfold gapsLeft gapCount
  split <;> omega

/-- Settles O50: a run is supplied by that many answers and readings, and each step uses one of them up. -/
theorem everyRunEnds : Obligations.EveryRunEnds := by
  intro s hi hp hr hsink htick
  have hbytes := bytesLeft_le hi
  have hgaps := gapsLeft_le hi
  have hs : Supplied s := {
    inv := hi
    noReset := hr
    ended := fun hidle => absurd hidle hp
    sink := hbytes.trans hsink
    tick := htick.imp_right hgaps.trans }
  obtain ⟨k, hk, t, ht⟩ := hs.ends
  have hbound : stepsLeft s ≤ 1691 + shortReadings s.dly s.tick := by rw [stepsLeft]; omega
  exact ⟨k, hk.trans hbound, t, ht⟩

end Sys2Proof.Machine
end

section
/-! The system commands (43_system_commands.md): NOP, CLEAR, SETDELAY and the illegal opcodes, each with the bytes it
decodes from and its outcome with and without an error held. -/

namespace Sys2Proof.Machine

open Sys2Proof

/-! ### The bytes of the commands (R170 to R172, R174) -/

theorem decodeCommand_nop (rest : List Byte) : decodeCommand (0x00 :: rest) = .ok .nop rest := rfl

theorem decodeCommand_clear (rest : List Byte) : decodeCommand (0x01 :: rest) = .ok .clear rest := rfl

theorem decodeCommand_setdelay (dl dh : Byte) (rest : List Byte) :
    decodeCommand (0x02 :: dl :: dh :: rest) = .ok (.setdelay (assembleDelay dl dh)) rest := rfl

/-- Two bytes fit the 16 bits of DLY: the value does not wrap. -/
theorem assembleDelay_toNat (dl dh : Byte) : (assembleDelay dl dh).toNat = 256 * dh.toNat + dl.toNat := by
  have hl := dl.isLt
  have hh := dh.isLt
  exact Nat.mod_eq_of_lt (by omega)

/-- A byte past the five defined opcodes is a command of its own. -/
theorem decodeCommand_illegal {op : Byte} (h : 5 ≤ op.toNat) (rest : List Byte) :
    decodeCommand (op :: rest) = .ok (.illegal op) rest := by
  have hne {b : Byte} (hb : b.toNat < 5) : op ≠ b := fun heq => Nat.not_le_of_lt hb (heq ▸ h)
  simp [decodeCommand, hne]

/-! ### The outcomes of the commands -/

/-- Commands are taken exactly while the block is idle (R32). -/
theorem State.cmdReady_iff (s : State) : s.cmdReady = true ↔ s.ph = .idle := by
  simp [State.cmdReady, State.busy_eq_decide]

theorem exec_nop (s : State) : exec .nop s = .next s := rfl

theorem exec_clear (s : State) : exec .clear s = .next { s with cnt := 0, verr := .none, res := .none } := rfl

theorem exec_setdelay {s : State} (ms : BitVec 16) (hv : s.verr = .none) :
    exec (.setdelay ms) s = .next { s with dly := ms } := if_pos hv

theorem exec_illegal {s : State} (op : Byte) (hv : s.verr = .none) :
    exec (.illegal op) s = .next { s with verr := .illegalCommand } :=
  congrArg Host.Outcome.next (raiseValidation_of_none _ hv)

/-- CLEAR aside, a command that runs under a held error answers the state it was given. -/
theorem exec_next_of_error {i : Instr} {s t : State} (hi : i.space = .command) (hclear : i ≠ .clear)
    (hv : s.verr ≠ .none) (h : exec i s = .next t) : t = s :=
  Host.Outcome.next.inj (h.symm.trans (errorStateRefusesEveryCommandButClear i s hi hclear hv))

/-! ### The statements -/

/-- Settles O10: NOP has no test of VERR or PH in it, so the state comes back as it is; the port is what waits for IDLE. -/
theorem nopChangesNothing : Obligations.NopChangesNothing := fun s rest =>
  ⟨decodeCommand_nop rest, exec_nop s, s.cmdReady_iff⟩

/-- Settles O11: that no other command changes a held VERR follows from O8, by which none changes anything. -/
theorem clearEmptiesTheListAndTheErrors : Obligations.ClearEmptiesTheListAndTheErrors := fun s =>
  ⟨decodeCommand_clear, exec_clear s, fun _ _ hi hclear hv h =>
    congrArg State.verr (exec_next_of_error hi hclear hv h)⟩

/-- Settles O12: the value is the one the decoder assembles; the held error is O8's. -/
theorem setdelayWritesTheDelay : Obligations.SetdelayWritesTheDelay := fun s dl dh rest =>
  ⟨assembleDelay dl dh, decodeCommand_setdelay dl dh rest, assembleDelay_toNat dl dh, exec_setdelay _,
    errorStateRefusesEveryCommandButClear _ s rfl nofun⟩

/-- Settles O13: the decoder's last branch, and the held error is O8's. -/
theorem illegalOpcodeRecordsIllegalCommand : Obligations.IllegalOpcodeRecordsIllegalCommand := fun s op rest hop =>
  ⟨decodeCommand_illegal hop rest, rfl, exec_illegal op,
    errorStateRefusesEveryCommandButClear _ s rfl nofun⟩

end Sys2Proof.Machine
end

section
/-! The two errors (60_exceptions.md): a validation error changes VERR alone, and a write the sink fails ends the run. -/

namespace Sys2Proof.Machine

open Sys2Proof

/-! ### The Write step of a frame (R143, R146, R149) -/

/-- Inside a frame of 69 bytes every position has a byte: the accumulator's at 68, the frame's before it. -/
theorem exists_pktByte {tm : Byte} {c : BitVec 2} {payload : List Byte} {ck : Byte} (csum : Byte) {k : Nat}
    (hlen : (encode (.pkt tm c payload ck)).length = 69) (hk : k < 69) :
    ∃ b, pktByte tm c payload ck csum k = some b := by
  unfold pktByte
  split
  · exact ⟨csum, rfl⟩
  · exact ⟨_, List.getElem?_eq_getElem (by omega)⟩

theorem exists_termByte (mask : BitVec 6) {k : Nat} (hk : k < 3) : ∃ b, termByte mask k = some b :=
  ⟨_, List.getElem?_eq_getElem hk⟩

/-- Inside a well-formed frame the Write step is the write of one byte, whatever the sink answers. -/
theorem exec_frame_is_sinkWrite {i : Instr} {s : State} (hi : i.space = .wire) (hwf : i.wf)
    (hin : i = .init ∨ s.bi.toNat < i.lengthBytes) : ∃ b f, exec i s = sinkWrite b f s := by
  cases i with
  | init => exact ⟨_, _, rfl⟩
  | pkt tm c payload ck =>
    have hbi : s.bi.toNat < 69 := hin.resolve_left nofun
    obtain ⟨b, hb⟩ := exists_pktByte s.csum (Laws.EncodedLength.pkt tm c payload ck hwf) hbi
    exact ⟨b, _, exec_pkt_eq hb⟩
  | term mask =>
    have hbi : s.bi.toNat < 3 := hin.resolve_left nofun
    obtain ⟨b, hb⟩ := exists_termByte mask hbi
    exact ⟨b, _, exec_term_eq hb⟩
  | nop => cases hi
  | clear => cases hi
  | setdelay ms => cases hi
  | append sp ef text => cases hi
  | transmit => cases hi
  | illegal opcode => cases hi

/-! ### A command that leaves a new error (R183) -/

/-- Of the things a command can do, only a raised validation error leaves VERR with an error it did not hold. -/
theorem exec_command_raises {i : Instr} {s t : State} (hi : i.space = .command) (h : exec i s = .next t)
    (hheld : t.verr ≠ .none) (hnew : t.verr ≠ s.verr) : s.verr = .none ∧ t = { s with verr := t.verr } := by
  rcases exec_command_cases hi h with rfl | ⟨-, rfl⟩ | ⟨-, ms, -, rfl⟩ | ⟨hv, code, rfl⟩ |
    ⟨-, sp, ef, text, e, -, -, hstore⟩ | ⟨-, -, -, rfl⟩
  · exact absurd rfl hnew
  · exact absurd rfl hheld
  · exact absurd rfl hnew
  · exact ⟨hv, rfl⟩
  · obtain ⟨m, rfl⟩ := storeMessage_cases hstore
    exact absurd rfl hnew
  · exact absurd rfl hnew

/-! ### The statements -/

/-- Settles O15: the two outcomes of raising, and what a command that leaves a new error can have been. -/
theorem raiseValidationRecordsTheFirstError : Obligations.RaiseValidationRecordsTheFirstError := fun _ =>
  ⟨raiseValidation_of_none, raiseValidation_of_error, fun _ _ => exec_command_raises⟩

/-- Settles O16: each frame's Write step is one byte write, and a failed one raises IoError, whose fields are known. -/
theorem failedWriteRaisesIoError : Obligations.FailedWriteRaisesIoError := by
  intro i s r hi hwf hin hfail
  obtain ⟨b, f, hwrite⟩ := exec_frame_is_sinkWrite hi hwf hin
  exact ⟨_, hwrite.trans (sinkWrite_fail b f hfail), rfl, rfl, rfl, rfl, rfl, rfl, rfl, rfl, rfl, rfl, rfl, rfl, rfl⟩

end Sys2Proof.Machine
end

section
/-! Reset (70_reset_and_hazards.md): what becomes of the byte in flight, and of the bytes of a command received in
part. -/

namespace Sys2Proof.Machine

open Sys2Proof

/-! ### The byte in flight (R211) -/

theorem State.txValid_iff (s : State) : s.txValid = true ↔ s.ph = .init ∨ s.ph = .pkt ∨ s.ph = .term := by
  simp [State.txValid, or_assoc]

/-- Outside INIT, PKT and TERM no byte is presented. -/
theorem txData_eq_none {s : State} (hv : s.txValid = false) : s.txData = none := by
  cases hp : s.ph with
  | idle | initGap | pktGap | msgGap => rw [State.txData, hp]
  | init | pkt | term => simp [State.txValid, hp] at hv

/-- In INIT, PKT and TERM a byte is presented: a run presents one or waits in a gap, and these are no gaps. -/
theorem exists_txData {s : State} (hi : Inv s) (hv : s.txValid = true) : ∃ b, s.txData = some b := by
  have hp := s.txValid_iff.1 hv
  refine (presents_or_waits hi ?_).resolve_right ?_
  · rcases hp with hp | hp | hp <;> simp [hp]
  · rcases hp with hp | hp | hp <;> simp [hp]

@[simp] theorem inFlight_none (d : Bool) : inFlight d none = [] := by cases d <;> rfl

@[simp] theorem inFlight_some (d : Bool) (b : Byte) : inFlight d (some b) = if d then [.tx b] else [] := by
  cases d <;> rfl

/-! ### The bytes of a whole command (R72 to R77) -/

/-- The two bytes of SETDELAY's operand are assembled to the operand again. -/
theorem assembleDelay_bytes (ms : BitVec 16) :
    assembleDelay (BitVec.ofNat 8 ms.toNat) (BitVec.ofNat 8 (ms.toNat / 256)) = ms := by
  have hlt := ms.isLt
  refine BitVec.eq_of_toNat_eq ?_
  rw [assembleDelay_toNat, BitVec.toNat_ofNat, BitVec.toNat_ofNat]
  omega

/-- The length byte of APPEND says where its text ends. -/
theorem decodeAppend_bytes (sp ef : Byte) {text : List Byte} (h : text.length ≤ 255) (rest : List Byte) :
    decodeAppend (sp :: ef :: BitVec.ofNat 8 text.length :: (text ++ rest)) = .ok (.append sp ef text) rest := by
  have hlen : (BitVec.ofNat 8 text.length).toNat = text.length := Nat.mod_eq_of_lt (Nat.lt_succ_of_le h)
  rw [decodeAppend, hlen, if_neg (by simp), List.take_left, List.drop_left]

/-- The decoder reads a well-formed command back from its bytes, whatever follows them. -/
theorem decodeCommand_encode {i : Instr} (hi : i.space = .command) (hwf : i.wf) (rest : List Byte) :
    decodeCommand (encode i ++ rest) = .ok i rest := by
  cases i with
  | nop => exact decodeCommand_nop rest
  | clear => exact decodeCommand_clear rest
  | setdelay ms => exact (decodeCommand_setdelay _ _ rest).trans (by rw [assembleDelay_bytes])
  | append sp ef text =>
    have hlen : text.length ≤ 255 := by simpa [Instr.wf, Instr.check] using hwf
    exact decodeAppend_bytes sp ef hlen rest
  | transmit => exact decodeCommand_transmit rest
  | illegal opcode =>
    have hop : 5 ≤ opcode.toNat := by simpa [Instr.wf, Instr.check] using hwf
    exact decodeCommand_illegal hop rest
  | init => cases hi
  | pkt tm c payload ck => cases hi
  | term mask => cases hi

/-! ### The statements -/

/-- Settles O34: the trace grows by `inFlight` of the byte presented, which is there in the writing phases alone. -/
theorem resetLeavesTheByteInFlightOpen : Obligations.ResetLeavesTheByteInFlightOpen := by
  intro s d r h
  refine ⟨_, step_of_high h, resetBlock_ph .., resetBlock_res .., fun hv => ?_, exists_txData, fun b hb => ?_⟩
  · rw [resetBlock_trace, txData_eq_none hv, inFlight_none, List.append_nil]
  · rw [resetBlock_trace, hb, inFlight_some]
    cases d
    · exact List.append_nil _
    · rfl

/-- Settles O35: the reset leaves the block idle with nothing received, so the next step decodes the port alone. -/
theorem resetDropsAPartlyReceivedCommand : Obligations.ResetDropsAPartlyReceivedCommand := by
  intro s d r i rest h hlow hi hwf hcmd
  refine ⟨_, step_of_high h, resetBlock_rx .., ?_⟩
  have hdec : decodeCommand ([] ++ s.cmd) = .ok i rest := by
    rw [List.nil_append, hcmd, decodeCommand_encode hi hwf]
  exact step_command hlow (resetBlock_ph ..) hdec

end Sys2Proof.Machine
end

section
/-! The two encodings (30_encoding.md): what a decoder reads is what the encoder writes, in both directions, and the
command decoder rejects nothing but a command that is not whole yet. -/

namespace Sys2Proof.Machine

open Sys2Proof

/-! ### The bytes of a frame (R78 to R80) -/

theorem chunkOffset_reserved_bits (c : BitVec 2) : (chunkOffset c).extractLsb' 0 6 = 0 := by
  revert c; decide

theorem chunkOffset_chunk_bits (c : BitVec 2) : (chunkOffset c).extractLsb' 6 2 = c := by
  revert c; decide

/-- A chunk offset without reserved bits is the one its chunk is written as. -/
theorem chunkOffset_of_chunk_bits {off : Byte} (h : off.extractLsb' 0 6 = 0) :
    chunkOffset (off.extractLsb' 6 2) = off := by
  revert off; decide

theorem mask_reserved_bits (mask : BitVec 6) : (mask.setWidth 8).extractLsb' 6 2 = 0 := by
  revert mask; decide

theorem mask_low_bits (mask : BitVec 6) : (mask.setWidth 8).extractLsb' 0 6 = mask := by
  revert mask; decide

/-- A mask byte without reserved bits is the one its mask is written as. -/
theorem mask_of_low_bits {m : Byte} (h : m.extractLsb' 6 2 = 0) : (m.extractLsb' 0 6).setWidth 8 = m := by
  revert m; decide

/-- The 64 bytes after the offset are the payload, the one after them the checksum. -/
theorem decodePkt_bytes (tm : Byte) (c : BitVec 2) {payload : List Byte} (h : payload.length = 64) (ck : Byte)
    (rest : List Byte) :
    decodePkt (tm :: chunkOffset c :: (payload ++ ck :: rest)) = .ok (.pkt tm c payload ck) rest := by
  rw [decodePkt, if_neg (not_not_intro (chunkOffset_reserved_bits c)), ← h, List.drop_left, List.take_left,
    chunkOffset_chunk_bits]

theorem decodeTerm_bytes (mask : BitVec 6) (rest : List Byte) :
    decodeTerm (mask.setWidth 8 :: rest) = .ok (.term mask) rest := by
  rw [decodeTerm, if_neg (not_not_intro (mask_reserved_bits mask)), mask_low_bits]

theorem pkt_payload_length {tm : Byte} {c : BitVec 2} {payload : List Byte} {ck : Byte}
    (h : (Instr.pkt tm c payload ck).wf) : payload.length = 64 := by
  by_contra hne
  simp [Instr.wf, Instr.check, hne] at h

/-- The frame decoder reads a well-formed frame back from its bytes, whatever follows them. -/
theorem decodeWire_encode {i : Instr} (hi : i.space = .wire) (hwf : i.wf) (rest : List Byte) :
    decodeWire (encode i ++ rest) = .ok i rest := by
  cases i with
  | init => rfl
  | pkt tm c payload ck =>
    have hbytes : encode (.pkt tm c payload ck) ++ rest =
        0x02 :: 0x31 :: tm :: chunkOffset c :: (payload ++ ck :: rest) := by simp [encode]
    rw [hbytes]
    exact decodePkt_bytes tm c (pkt_payload_length hwf) ck rest
  | term mask => exact decodeTerm_bytes mask rest
  | nop => cases hi
  | clear => cases hi
  | setdelay ms => cases hi
  | append sp ef text => cases hi
  | transmit => cases hi
  | illegal opcode => cases hi

/-! ### What a decoder has read (R71 to R80) -/

/-- `bs` are the bytes of the instruction `i` of the space `sp`, followed by `rest`. -/
structure Reads (sp : Space) (bs : List Byte) (i : Instr) (rest : List Byte) : Prop where
  space : i.space = sp
  bytes : encode i ++ rest = bs
  wf : sp = .command → i.wf

section
variable {bs rest : List Byte} {i : Instr}

/-- The number in two bytes, low byte first, has these bytes. -/
theorem bytes_assembleDelay (dl dh : Byte) :
    BitVec.ofNat 8 (assembleDelay dl dh).toNat = dl ∧ BitVec.ofNat 8 ((assembleDelay dl dh).toNat / 256) = dh := by
  have hl := dl.isLt
  have hh := dh.isLt
  rw [assembleDelay_toNat]
  constructor <;> refine BitVec.eq_of_toNat_eq ?_ <;> rw [BitVec.toNat_ofNat] <;> omega

theorem decodeSetdelay_reads (h : decodeSetdelay bs = .ok i rest) : Reads .command (0x02 :: bs) i rest := by
  unfold decodeSetdelay at h
  split at h <;> cases h
  rename_i dl dh
  obtain ⟨hl, hh⟩ := bytes_assembleDelay dl dh
  exact ⟨rfl, by simp [encode, hl, hh], fun _ => rfl⟩

theorem decodeAppend_reads (h : decodeAppend bs = .ok i rest) : Reads .command (0x03 :: bs) i rest := by
  unfold decodeAppend at h
  split at h
  next sp ef len more =>
    split at h <;> cases h
    next hlen =>
    have htext : (more.take len.toNat).length = len.toNat := List.length_take_of_le (Nat.le_of_not_lt hlen)
    refine ⟨rfl, ?_, fun _ => ?_⟩
    · simp only [encode, htext, BitVec.ofNat_toNat, BitVec.setWidth_eq, List.cons_append, List.take_append_drop]
    · have hmax := len.isLt
      rw [Instr.wf, Instr.check, if_pos (by omega)]
  next => cases h

theorem decodeCommand_reads (h : decodeCommand bs = .ok i rest) : Reads .command bs i rest := by
  cases bs with
  | nil => cases h
  | cons op bs =>
    simp only [decodeCommand] at h
    split_ifs at h with h0 h1 h2 h3 h4
    · cases h; exact ⟨rfl, by rw [h0]; rfl, fun _ => rfl⟩
    · cases h; exact ⟨rfl, by rw [h1]; rfl, fun _ => rfl⟩
    · rw [h2]; exact decodeSetdelay_reads h
    · rw [h3]; exact decodeAppend_reads h
    · cases h; exact ⟨rfl, by rw [h4]; rfl, fun _ => rfl⟩
    · cases h
      have hop : 5 ≤ op.toNat := by bv_omega
      exact ⟨rfl, rfl, fun _ => if_pos hop⟩

theorem decodePkt_reads (h : decodePkt bs = .ok i rest) : Reads .wire (0x02 :: 0x31 :: bs) i rest := by
  unfold decodePkt at h
  split at h
  next tm off more =>
    split at h
    · cases h
    next hoff =>
    split at h <;> cases h
    next ck hmore =>
    refine ⟨rfl, ?_, nofun⟩
    have hpayload : more.take 64 ++ ck :: rest = more := by rw [← hmore, List.take_append_drop]
    rw [encode, chunkOffset_of_chunk_bits (not_not.1 hoff)]
    simp [hpayload]
  next => cases h

theorem decodeTerm_reads (h : decodeTerm bs = .ok i rest) : Reads .wire (0x02 :: 0x33 :: bs) i rest := by
  unfold decodeTerm at h
  split at h
  next m more =>
    split at h <;> cases h
    next hm => exact ⟨rfl, by simp [encode, mask_of_low_bits (not_not.1 hm)], nofun⟩
  next => cases h

theorem decodeWire_reads (h : decodeWire bs = .ok i rest) : Reads .wire bs i rest := by
  cases bs with
  | nil => cases h
  | cons b bs =>
    simp only [decodeWire] at h
    split_ifs at h with h0 h2
    · cases h; exact ⟨rfl, by rw [h0]; rfl, nofun⟩
    · rw [h2]
      cases bs with
      | nil => cases h
      | cons k bs =>
        simp only [decodeMarked] at h
        split_ifs at h with hpkt hterm
        · rw [hpkt]; exact decodePkt_reads h
        · rw [hterm]; exact decodeTerm_reads h

/-! ### A command that is not whole yet (R71) -/

/-- The bytes begin a well-formed command, and the decoder can tell that they are not all of it. -/
def Completable (bs : List Byte) (why : Reject) : Prop :=
  why = .incomplete ∧ ∃ i more, i.space = .command ∧ i.wf ∧ bs ++ more = encode i

variable {why : Reject}

theorem decodeSetdelay_completable (h : decodeSetdelay bs = .rejected why) : Completable (0x02 :: bs) why := by
  match bs with
  | [] => cases h; exact ⟨rfl, .setdelay 0, [0, 0], rfl, rfl, rfl⟩
  | [dl] =>
    cases h
    obtain ⟨hl, hh⟩ := bytes_assembleDelay dl 0
    exact ⟨rfl, .setdelay (assembleDelay dl 0), [0], rfl, rfl, by rw [encode, hl, hh]; rfl⟩
  | dl :: dh :: more => cases h

/-- An APPEND whose text has not all come is completed by any bytes, zeros for one, up to its length byte's number. -/
theorem decodeAppend_completable (h : decodeAppend bs = .rejected why) : Completable (0x03 :: bs) why := by
  match bs with
  | [] => cases h; exact ⟨rfl, .append 0 0 [], [0, 0, 0], rfl, rfl, rfl⟩
  | [sp] => cases h; exact ⟨rfl, .append sp 0 [], [0, 0], rfl, rfl, rfl⟩
  | [sp, ef] => cases h; exact ⟨rfl, .append sp ef [], [0], rfl, rfl, rfl⟩
  | sp :: ef :: len :: text =>
    simp only [decodeAppend] at h
    split at h <;> cases h
    next hlen =>
    have hmax := len.isLt
    obtain ⟨zeros, hlen⟩ : ∃ zeros : List Byte, (text ++ zeros).length = len.toNat :=
      ⟨List.replicate (len.toNat - text.length) 0x00, by simp; omega⟩
    refine ⟨rfl, .append sp ef (text ++ zeros), zeros, rfl, if_pos (by omega), ?_⟩
    simp only [encode, hlen, BitVec.ofNat_toNat, BitVec.setWidth_eq, List.cons_append]

theorem decodeCommand_completable (h : decodeCommand bs = .rejected why) : Completable bs why := by
  cases bs with
  | nil => cases h; exact ⟨rfl, .nop, [0x00], rfl, rfl, rfl⟩
  | cons op bs =>
    simp only [decodeCommand] at h
    split_ifs at h with h0 h1 h2 h3 h4
    · rw [h2]; exact decodeSetdelay_completable h
    · rw [h3]; exact decodeAppend_completable h

end

/-! ### The statements -/

/-- Settles O1, by the encoding space. -/
theorem decodeOfEncodeGivesTheInstruction : Obligations.DecodeOfEncodeGivesTheInstruction := by
  intro i rest hwf
  cases hi : i.space with
  | command => exact decodeCommand_encode hi hwf rest
  | wire => exact decodeWire_encode hi hwf rest

/-- Settles O2, by the encoding space. -/
theorem encodeOfDecodeGivesTheBytes : Obligations.EncodeOfDecodeGivesTheBytes := by
  intro sp bs i rest h
  have hreads : Reads sp bs i rest := by
    cases sp with
    | command => exact decodeCommand_reads h
    | wire => exact decodeWire_reads h
  exact ⟨hreads.space, hreads.bytes, hreads.wf⟩

/-- Settles O3: what was read is the bytes of a well-formed command, and those are read whatever follows them. -/
theorem commandDecoderIsTotalAndReadsOwnBytes : Obligations.CommandDecoderIsTotalAndReadsOwnBytes := by
  refine fun bs => ⟨fun i rest more h => ?_, fun why h => ?_⟩
  · have hreads := decodeCommand_reads h
    rw [← hreads.bytes, List.append_assoc]
    exact decodeCommand_encode hreads.space (hreads.wf rfl) (rest ++ more)
  · obtain ⟨hwhy, i, more, hi, hwf, hbytes⟩ := decodeCommand_completable h
    refine ⟨hwhy, i, more, ?_⟩
    rw [hbytes, ← List.append_nil (encode i)]
    exact decodeCommand_encode hi hwf []

/-- Settles O4: closed words, each decoded by evaluation. -/
theorem sampleWordsDecode : Obligations.SampleWordsDecode :=
  ⟨rfl, rfl, rfl, rfl, rfl, rfl, rfl, rfl, rfl⟩

end Sys2Proof.Machine
end

section
/-! The invariant of the block (20_memory.md R50, R53, 10_state.md R22, R28, R32): it holds with no messages, every
command keeps it, and so does every step; a step of a run moves it on, waits or aborts it, and its trace follows. -/

namespace Sys2Proof.Machine

open Sys2Proof

/-! ### A block without messages (R35, R210) -/

theorem Inv.of_empty {s : State} (hm : s.mb = []) (hc : s.cnt = 0) (hp : s.ph = .idle) (hx : s.rx = []) : Inv s where
  store_wf := hm ▸ List.Pairwise.nil
  store_bound := by rw [hm]; exact nofun
  cnt_le := by simp [hc]
  slots := by simp [hc]
  rx_open := by rw [hx]; rfl
  running := fun h => absurd hp h
  position := by rw [positionInv, hp]; trivial

theorem resetBlock_inv (d : Bool) (o : Option Byte) (s : State) : Inv (resetBlock d o s) := .of_empty rfl rfl rfl rfl

/-! ### Commands -/

/-- The invariant of the idle block is its list's and its received bytes': the fields it does not speak of are free. -/
theorem Inv.of_idle {s t : State} (hi : Inv s) (hmb : t.mb = s.mb) (hcnt : t.cnt = s.cnt) (hcfg : t.cfg = s.cfg)
    (hp : t.ph = .idle) (hx : decodeCommand t.rx = .rejected .incomplete) : Inv t where
  store_wf := hmb ▸ hi.store_wf
  store_bound := by rw [hmb, hcfg]; exact hi.store_bound
  cnt_le := by rw [hcnt, hcfg]; exact hi.cnt_le
  slots := by rw [hmb, hcnt]; exact hi.slots
  rx_open := hx
  running := fun h => absurd hp h
  position := by rw [positionInv, hp]; trivial

/-- Operands that pass every check are in range, and the list has room. -/
theorem checkAppend_passed {cfg : Config} {cnt : BitVec 3} {sp ef : Byte} {text : List Byte} {e : Effect}
    (h : checkAppend cfg cnt sp ef text = .passed e) :
    text.length < 250 ∧ cnt.toNat ≠ cfg.maxMessages ∧ 1 ≤ sp.toNat ∧ sp.toNat ≤ 5 := by
  unfold checkAppend at h
  split_ifs at h with ht hc hs
  rw [Config.textLimit] at ht
  exact ⟨by omega, hc, by omega, by omega⟩

/-- What Build makes of operands in range is a message buffer of its slot (R53, R100). -/
theorem legalBuffer_build {text : List Byte} {sp : Byte} (e : Effect) {i : Nat} (ht : text.length < 250)
    (h1 : 1 ≤ sp.toNat) (h5 : sp.toNat ≤ 5) (hi : i < 6) :
    legalBuffer i (build text sp (effectTag e) (i + 1)) = true := by
  have hspeed : (0x30 + sp).toNat = 0x30 + sp.toNat := digit_toNat (by omega)
  have hk : (BitVec.ofNat 8 (i + 1)).toNat = i + 1 := Nat.mod_eq_of_lt (by omega)
  have hslot : (0x30 + BitVec.ofNat 8 (i + 1)).toNat = 0x31 + i := by rw [digit_toNat (by omega), hk]; omega
  have hlen : (BitVec.ofNat 8 text.length).toNat = text.length := Nat.mod_eq_of_lt (by omega)
  have htag := effectTag_range e
  have hbody : (text ++ List.replicate (252 - text.length) (0x00 : Byte)).length = 252 := by simp; omega
  have hpadding : ((text ++ List.replicate (252 - text.length) (0x00 : Byte)).drop text.length).all (· == 0x00) := by
    simp
  change (decide _ && decide _ && decide _ && decide _ && decide _ && List.all _ _) = true
  rw [hspeed, hslot, hlen]
  simp only [Bool.and_eq_true, decide_eq_true_eq]
  exact ⟨⟨⟨⟨⟨by omega, trivial⟩, htag⟩, ht⟩, hbody⟩, hpadding⟩

/-- An accepted message joins the list: the slots below keep their buffers and the new one holds its own (R107). -/
theorem Inv.store {s : State} {B : List Byte} (hi : Inv s) (hp : s.ph = .idle) (hc : s.cnt.toNat < s.cfg.maxMessages)
    (hB : legalBuffer s.cnt.toNat B = true) :
    Inv { s with mb := s.mb.writeBlock (256 * s.cnt.toNat) B, cnt := s.cnt + 1 } where
  store_wf := Memory.wf_writeBlock _ _ _ hi.store_wf
  store_bound := by
    intro x hx
    have hlen := legalBuffer_length hB
    rcases Memory.mem_writeBlock _ _ _ _ hx with hold | hnew
    · exact hi.store_bound x hold
    · simp only [Config.storeSize, Config.bufSize]; omega
  cnt_le := by rw [cnt_succ_toNat hc]; exact hc
  slots := by
    intro i hlt
    rw [cnt_succ_toNat hc] at hlt
    have hlen := legalBuffer_length hB
    rcases Nat.lt_succ_iff_lt_or_eq.1 hlt with hbelow | rfl
    · have hslot : slotAddr i 0 + 256 ≤ 256 * s.cnt.toNat := by simp only [slotAddr, Config.bufSize]; omega
      rw [slotBytes, Memory.readBlock_writeBlock_other _ _ _ _ _ (.inl hslot)]
      exact hi.slots i hbelow
    · rw [slotBytes_of_read (hlen ▸ Memory.readBlock_writeBlock_same _ _ _)]
      exact hB
  rx_open := hi.rx_open
  running := fun h => absurd hp h
  position := by simp only [positionInv, hp]

/-- A command has a meaning in every state that meets the invariant: APPEND's checks keep its slot inside the store. -/
theorem exec_command_next {i : Instr} {s : State} (hspace : i.space = .command) (hi : Inv s) :
    ∃ t, exec i s = .next t := by
  cases i with
  | append sp ef text =>
    by_cases hv : s.verr = .none
    · cases hcheck : checkAppend s.cfg s.cnt sp ef text with
      | error code => exact ⟨_, exec_append_of_error hv hcheck⟩
      | passed e =>
        obtain ⟨ht, hc, -⟩ := checkAppend_passed hcheck
        have hroom : s.cnt.toNat < s.cfg.maxMessages := Nat.lt_of_le_of_ne hi.cnt_le hc
        exact ⟨_, (exec_append_of_passed hv hcheck).trans (storeMessage_eq (build_length _ _ _ _ (by omega)) hroom)⟩
    · exact ⟨_, errorStateRefusesEveryCommandButClear _ s rfl nofun hv⟩
  | transmit =>
    by_cases hv : s.verr = .none
    · by_cases hc : s.cnt = 0
      · exact ⟨_, exec_transmit_of_empty hv hc⟩
      · exact ⟨_, exec_transmit_starts hv hc⟩
    · exact ⟨_, exec_transmit_of_error hv⟩
  | setdelay ms =>
    by_cases hv : s.verr = .none
    · exact ⟨_, exec_setdelay ms hv⟩
    · exact ⟨_, errorStateRefusesEveryCommandButClear _ s rfl nofun hv⟩
  | nop => exact ⟨_, rfl⟩
  | clear => exact ⟨_, rfl⟩
  | illegal opcode => exact ⟨_, rfl⟩
  | init => cases hspace
  | pkt tm c payload ck => cases hspace
  | term mask => cases hspace

/-- A command taken whole by the idle block keeps the invariant. -/
theorem Inv.command {i : Instr} {s t : State} (hi : Inv s) (hp : s.ph = .idle) (hx : s.rx = [])
    (hspace : i.space = .command) (h : exec i s = .next t) : Inv t := by
  rcases exec_command_cases hspace h with rfl | ⟨-, rfl⟩ | ⟨-, ms, -, rfl⟩ | ⟨-, code, rfl⟩ |
    ⟨-, sp, ef, text, e, -, hcheck, hstore⟩ | ⟨hv, -, hc, rfl⟩
  · exact hi
  · exact {
      store_wf := hi.store_wf
      store_bound := hi.store_bound
      cnt_le := Nat.zero_le _
      slots := nofun
      rx_open := hi.rx_open
      running := fun hrun => absurd hp hrun
      position := by simp only [positionInv, leaveErrorState_ph, hp] }
  · exact hi.of_idle rfl rfl rfl hp hi.rx_open
  · exact hi.of_idle rfl rfl rfl hp hi.rx_open
  · obtain ⟨ht, hne, h1, h5⟩ := checkAppend_passed hcheck
    have hroom : s.cnt.toNat < s.cfg.maxMessages := Nat.lt_of_le_of_ne hi.cnt_le hne
    have hmax := maxMessages_le s.cfg
    rw [storeMessage_eq (build_length _ _ _ _ (by omega)) hroom] at hstore
    cases hstore
    exact hi.store hp hroom (legalBuffer_build e ht h1 h5 (by omega))
  · have hcnt : 1 ≤ s.cnt.toNat := Nat.pos_of_ne_zero fun h0 => hc (BitVec.eq_of_toNat_eq h0)
    exact ⟨hi.store_wf, hi.store_bound, hi.cnt_le, hi.slots, hi.rx_open, fun _ => ⟨hv, rfl, hcnt, hx⟩, trivial⟩

/-! ### Steps -/

/-- The idle block takes a whole command, or receives one in part. -/
theorem idle_step_inv {s : State} (hi : Inv s) (hr : NoResetNow s) (hp : s.ph = .idle) :
    ∃ t, step s = .next t ∧ Inv t := by
  cases hd : decodeCommand (s.rx ++ s.cmd) with
  | ok i rest =>
    have htaken : Inv { sampled s with rx := [], cmd := rest } := hi.of_idle rfl rfl rfl hp rfl
    have hspace := (decodeCommand_reads hd).space
    obtain ⟨t, ht⟩ := exec_command_next hspace htaken
    exact ⟨t, (step_command hr hp hd).trans ht, htaken.command hp rfl hspace ht⟩
  | rejected why =>
    obtain ⟨rfl, -⟩ := decodeCommand_completable hd
    exact ⟨_, step_receive hr hp hd, hi.of_idle rfl rfl rfl hp hd⟩

/-- What a step of a run from `s` to `t` does: it waits, moves the run on, or ends it at a write the sink fails. -/
inductive RunStep (s t : State) : Prop where
  | waits (h : t = sampled s)
  | advances (r : List SinkAnswer) (q : List Nat) (bytes gaps : Nat) (h : Advances s t r q bytes gaps)
  | aborts (r : List SinkAnswer) (h : t = raiseIoError { sampled s with sink := r })

theorem exists_runStep {s : State} (hi : Inv s) (hp : s.ph ≠ .idle) (hr : NoResetNow s) :
    ∃ t, step s = .next t ∧ RunStep s t := by
  rcases presents_or_waits hi hp with ⟨b, hb⟩ | hg
  · have hstep := step_presented hi hr hb
    cases hs : s.sink with
    | nil => exact ⟨_, hstep.trans (sinkWrite_wait _ _ hs), .waits rfl⟩
    | cons answer r =>
      cases answer with
      | ok =>
        obtain ⟨t, a⟩ := step_write_ok hi hp hr hb hs
        exact ⟨t, a.step, .advances _ _ _ _ a⟩
      | fail => exact ⟨_, hstep.trans (sinkWrite_fail _ _ hs), .aborts r rfl⟩
  · rcases step_gap_cases hi hr hg with ⟨hd, ht⟩ | ⟨m, q, t, -, -, a⟩ | ⟨q, t, -, a⟩
    · exact ⟨_, step_gap hr hg, .waits (awaitElapse_silent hd ht)⟩
    · exact ⟨t, a.step, .advances _ _ _ _ a⟩
    · exact ⟨t, a.step, .advances _ _ _ _ a⟩

theorem runStep_of_step {s t : State} (hi : Inv s) (hp : s.ph ≠ .idle) (hr : NoResetNow s) (h : step s = .next t) :
    RunStep s t := by
  obtain ⟨u, hu, hrun⟩ := exists_runStep hi hp hr
  rwa [Host.Outcome.next.inj (h.symm.trans hu)]

theorem RunStep.inv {s t : State} (h : RunStep s t) (hi : Inv s) : Inv t := by
  cases h with
  | waits h => rw [h]; exact hi.sampled
  | advances r q bytes gaps h => exact h.inv
  | aborts r h => rw [h]; exact hi.of_idle rfl rfl rfl rfl hi.rx_open

/-! ### The statements -/

/-- Settles O38, by what the step is: a reset, a step of the idle block, or a step of a run. -/
theorem everyStepKeepsTheInvariant : Obligations.EveryStepKeepsTheInvariant := by
  intro s hi
  by_cases hrst : ∃ d r, s.rst = .high d :: r
  · obtain ⟨d, r, hrst⟩ := hrst
    exact ⟨_, step_of_high hrst, resetBlock_inv _ _ _⟩
  · have hr : NoResetNow s := fun d r h => hrst ⟨d, r, h⟩
    by_cases hp : s.ph = .idle
    · exact idle_step_inv hi hr hp
    · obtain ⟨t, ht, hrun⟩ := exists_runStep hi hp hr
      exact ⟨t, ht, hrun.inv hi⟩

/-- Settles O39: the block after reset has no messages. -/
theorem resetMeetsTheInvariant : Obligations.ResetMeetsTheInvariant := .of_empty rfl rfl rfl rfl

/-- Settles O47: a step of a run that moves it on adds to the trace what it adds to its progress in `Seq`. -/
theorem runTraceFollowsSeq : Obligations.RunTraceFollowsSeq := by
  intro s t base hi hp hr htrace hstep
  cases runStep_of_step hi hp hr hstep with
  | waits h =>
    subst h
    exact ⟨fun _ => htrace, fun hidle => absurd hidle hp⟩
  | advances r q bytes gaps a =>
    obtain ⟨more, htr, hpr⟩ := a.moves.trace
    have hs : progress { sampled s with sink := r, tick := q } = emitted s := if_neg hp
    have htotal : t.trace = base ++ progress t := by
      rw [hpr, hs, ← List.append_assoc, ← htrace]
      exact htr
    refine ⟨fun hrun => ?_, fun hidle => .inl ⟨a.moves.ended hidle, ?_⟩⟩
    · rwa [progress, if_neg hrun] at htotal
    · have hseq : fullSeq t = fullSeq s := by
        rw [fullSeq, a.keeps.cfg, a.keeps.dly, a.keeps.mb, a.keeps.cnt]; rfl
      rwa [progress, if_pos hidle, hseq] at htotal
  | aborts r h =>
    subst h
    exact ⟨fun hrun => absurd rfl hrun, fun _ => .inr ⟨rfl, rfl⟩⟩

end Sys2Proof.Machine
end

section
/-! The frames as bytes and as Write steps (41_packetizer.md, 42_transmit_sequencer.md R143, R146, R149), and the effect
byte that stands for Scroll. -/

namespace Sys2Proof.Machine

open Sys2Proof

/-! ### The frames the sequencer builds are instructions (R83) -/

/-- A packet with the sequencer's marker and checksum is an instruction of the table. -/
theorem pktInstr_wf {cfg : Config} {i : Nat} (c : BitVec 2) {payload : List Byte} (hi : i < cfg.maxMessages)
    (hp : payload.length = 64) : (pktInstr cfg i c payload).wf := by
  have hmax := maxMessages_le cfg
  have hmarker : ¬ ((typeMarker cfg i).toNat < 6 ∨ 11 < (typeMarker cfg i).toNat) := by
    rw [typeMarker_toNat cfg hi]
    split <;> omega
  rw [Instr.wf, pktInstr, Instr.check, if_neg (not_not_intro hp), if_neg hmarker]
  exact if_neg (not_not_intro rfl)

theorem termInstr_wf : ∀ n < 7, 1 ≤ n → (termInstr n).wf := by decide

/-- The 64 bytes of a packet are read inside the store, so its message is one the list can hold. -/
theorem currentPkt_wf {s : State} {i : Instr} (h : currentPkt s = .ok i) : i.wf := by
  unfold currentPkt at h
  split at h
  next payload hread =>
    cases h
    obtain ⟨hfit, hblock⟩ := memRead_ok hread
    have hmi : s.mi.toNat < s.cfg.maxMessages := by
      simp only [slotAddr, Config.storeSize, Config.bufSize, Config.chunkSize] at hfit
      omega
    exact pktInstr_wf s.ci hmi ((Memory.readBlock_eq_some _ _ _ _).1 hblock).1
  next => cases h

theorem currentTerm_wf {s : State} {i : Instr} (h : currentTerm s = .ok i) : i.wf := by
  unfold currentTerm at h
  split at h <;> cases h
  next hcnt =>
    have hmax := maxMessages_le s.cfg
    exact termInstr_wf s.cnt.toNat (by omega) hcnt.1

/-! ### The bytes of a packet (R121, R123, R158) -/

theorem encode_pkt_payload_slice (tm : Byte) (c : BitVec 2) {p : List Byte} (ck : Byte) (h : p.length = 64) :
    ((encode (.pkt tm c p ck)).take 68).drop 4 = p := by
  simp [encode, ← h]

/-- A chunk and what is left of the buffer after it. -/
theorem chunkOf_append_drop (B : List Byte) (c : BitVec 2) :
    chunkOf B c ++ B.drop (64 * c.toNat + 64) = B.drop (64 * c.toNat) := by
  rw [chunkOf, ← List.drop_drop]
  exact List.take_append_drop ..

/-- Four chunks of 64 bytes are a buffer. -/
theorem chunks_eq_buffer {B : List Byte} (h : B.length = 256) : [0#2, 1#2, 2#2, 3#2].flatMap (chunkOf B) = B := by
  have h0 : chunkOf B 0 ++ B.drop 64 = B := chunkOf_append_drop B 0
  have h1 : chunkOf B 1 ++ B.drop 128 = B.drop 64 := chunkOf_append_drop B 1
  have h2 : chunkOf B 2 ++ B.drop 192 = B.drop 128 := chunkOf_append_drop B 2
  have h3 : chunkOf B 3 ++ B.drop 256 = B.drop 192 := chunkOf_append_drop B 3
  rw [List.drop_eq_nil_of_le (Nat.le_of_eq h)] at h3
  calc [0#2, 1#2, 2#2, 3#2].flatMap (chunkOf B)
    _ = chunkOf B 0 ++ (chunkOf B 1 ++ (chunkOf B 2 ++ (chunkOf B 3 ++ []))) := rfl
    _ = B := by rw [h3, h2, h1, h0]

/-- Two packets of one payload differ at the marker and the checksum alone. -/
theorem encode_pkt_congr (tm tm' : Byte) (c : BitVec 2) {p : List Byte} (ck ck' : Byte) (h : p.length = 64) {k : Nat}
    (h2 : k ≠ 2) (h68 : k ≠ 68) : (encode (.pkt tm c p ck))[k]? = (encode (.pkt tm' c p ck'))[k]? := by
  match k with
  | 0 | 1 | 3 => rfl
  | 2 => exact absurd rfl h2
  | j + 4 =>
    rw [Nat.add_comm j]
    rcases Nat.lt_or_ge j 64 with hj | hj
    · rw [encode_pkt_payload _ _ _ (h ▸ hj), encode_pkt_payload _ _ _ (h ▸ hj)]
    · rw [List.getElem?_eq_none, List.getElem?_eq_none] <;> rw [encode_pkt_length h] <;> omega

/-- The marker is one of the summands of the checksum. -/
theorem pktChecksum_eq (tm : Byte) (c : BitVec 2) (p : List Byte) :
    pktChecksum tm c p = tm + byteSum (Config.pktMark :: chunkOffset c :: p) := by
  simp only [pktChecksum, byteSum]
  ac_rfl

/-! ### The Write steps (R143, R146) -/

/-- A byte before the last one of a packet moves BI on and the accumulator with it. -/
theorem exec_pkt_of_lt {tm : Byte} {c : BitVec 2} {payload : List Byte} {ck : Byte} {s : State} {r : List SinkAnswer}
    {b : Byte} (hlt : s.bi.toNat < 68) (hb : (encode (.pkt tm c payload ck))[s.bi.toNat]? = some b)
    (hs : s.sink = .ok :: r) :
    exec (.pkt tm c payload ck) s = .next { s with
      sink := r, csum := accumulate s.bi.toNat s.csum b, bi := s.bi + 1, trace := s.trace ++ [.tx b] } := by
  have hne : s.bi.toNat ≠ 68 := Nat.ne_of_lt hlt
  have hbyte : pktByte tm c payload ck s.csum s.bi.toNat = some b := by rw [pktByte, if_neg hne, hb]
  rw [exec_pkt_eq hbyte, sinkWrite_ok _ _ hs, afterPktByte, if_neg hne]
  rfl

/-- The last byte of a packet is the accumulator, and the gap begins. -/
theorem exec_pkt_last {tm : Byte} {c : BitVec 2} {payload : List Byte} {ck : Byte} {s : State} {r : List SinkAnswer}
    (h68 : s.bi.toNat = 68) (hs : s.sink = .ok :: r) :
    exec (.pkt tm c payload ck) s =
      .next { s with sink := r, ph := .pktGap, trace := s.trace ++ [.tx s.csum, .gap s.dly] } := by
  have hbyte : pktByte tm c payload ck s.csum s.bi.toNat = some s.csum := by rw [pktByte, if_pos h68]
  rw [exec_pkt_eq hbyte, sinkWrite_ok _ _ hs, afterPktByte, if_pos h68, State.enterGap, State.deliver_trace,
    List.append_assoc]
  rfl

theorem exec_init_of_delay {s : State} {r : List SinkAnswer} (hs : s.sink = .ok :: r)
    (hd : s.cfg.delayAfterInit = true) :
    exec .init s = .next { s with sink := r, ph := .initGap, trace := s.trace ++ [.tx 0x00, .gap s.dly] } := by
  rw [exec, execInit, sinkWrite_ok _ _ hs, afterInit, State.deliver_cfg, if_pos hd, State.enterGap,
    State.deliver_trace, List.append_assoc]
  rfl

theorem exec_init_of_no_delay {s : State} {r : List SinkAnswer} (hs : s.sink = .ok :: r)
    (hd : s.cfg.delayAfterInit = false) :
    exec .init s =
      .next { s with sink := r, ph := .pkt, mi := 0, ci := 0, bi := 0, trace := s.trace ++ [.tx 0x00] } := by
  have hd' : ¬ s.cfg.delayAfterInit = true := by simp [hd]
  rw [exec, execInit, sinkWrite_ok _ _ hs, afterInit, State.deliver_cfg, if_neg hd']
  rfl

/-- Past its last byte a packet has none. -/
theorem exec_pkt_of_past {tm : Byte} {c : BitVec 2} {payload : List Byte} {ck : Byte} {s : State}
    (hp : payload.length = 64) (h : 69 ≤ s.bi.toNat) : exec (.pkt tm c payload ck) s = .fault .framePosition := by
  have hnone : pktByte tm c payload ck s.csum s.bi.toNat = none := by
    rw [pktByte, if_neg (by omega)]
    exact List.getElem?_eq_none (by rw [encode_pkt_length hp]; exact h)
  simp only [exec, execPkt, hnone]

theorem exec_term_of_past {mask : BitVec 6} {s : State} (h : 3 ≤ s.bi.toNat) :
    exec (.term mask) s = .fault .framePosition := by
  have hnone : termByte mask s.bi.toNat = none := List.getElem?_eq_none h
  simp only [exec, execTerm, hnone]

/-! ### The statements -/

/-- Settles O9: the decoder of the effect byte answers the same for both. -/
theorem unspecifiedEffectIsScroll : Obligations.UnspecifiedEffectIsScroll := by
  intro sp text s
  have heffect : decodeEffect 0x00 = decodeEffect 0x42 := rfl
  have hcheck : checkAppend s.cfg s.cnt sp 0x00 text = checkAppend s.cfg s.cnt sp 0x42 text := by
    simp only [checkAppend, heffect]
  simp only [exec, execAppend, hcheck]

/-- Settles O17: each frame's Write step is one byte write, and an unanswered one waits. -/
theorem silentSinkKeepsTheCoreWaiting : Obligations.SilentSinkKeepsTheCoreWaiting := by
  intro i s hi hwf hin hs
  obtain ⟨b, f, hwrite⟩ := exec_frame_is_sinkWrite hi hwf hin
  exact hwrite.trans (sinkWrite_wait b f hs)

/-- Settles O20: each payload is its chunk. -/
theorem fourPayloadsMakeTheBuffer : Obligations.FourPayloadsMakeTheBuffer := by
  intro cfg B i hB
  have hslice : (fun c => ((pktBytes cfg B i c).take 68).drop 4) = chunkOf B :=
    funext fun c => encode_pkt_payload_slice _ c _ (chunkOf_length c hB)
  rw [hslice]
  exact chunks_eq_buffer hB

/-- Settles O22, the packet and the terminator each by its own lemma. -/
theorem framesSentAreWellFormed : Obligations.FramesSentAreWellFormed := by
  rintro s i (h | h)
  · exact ⟨currentPkt_wf h, currentPkt_space h⟩
  · exact ⟨currentTerm_wf h, currentTerm_space h⟩

/-- Settles O23, by DELAY_AFTER_INIT. -/
theorem initWriteDeliversTheInitByte : Obligations.InitWriteDeliversTheInitByte :=
  fun _ _ hs => ⟨exec_init_of_delay hs, exec_init_of_no_delay hs⟩

/-- Settles O24: byte 0 clears the accumulator, bytes 1 to 67 are added to it, byte 68 is the accumulator. -/
theorem packetWriteDeliversTheNextByte : Obligations.PacketWriteDeliversTheNextByte := by
  intro tm c payload ck s r _ hs
  refine ⟨fun h0 => ?_, fun b h1 h67 hb => ?_, fun h68 => exec_pkt_last h68 hs⟩
  · have hbi : s.bi = 0 := BitVec.eq_of_toNat_eq h0
    rw [exec_pkt_of_lt (by omega) (by rw [h0]; rfl) hs, hbi]
    rfl
  · rw [exec_pkt_of_lt (by omega) hb hs, accumulate, if_neg (by omega), if_pos h67]

/-- Settles O26, by the frame. -/
theorem positionPastTheFrameStops : Obligations.PositionPastTheFrameStops := by
  intro i s hi hinit hwf hpast
  cases i with
  | pkt tm c payload ck => exact exec_pkt_of_past (pkt_payload_length hwf) hpast
  | term mask => exact exec_term_of_past hpast
  | init => exact absurd rfl hinit
  | nop => cases hi
  | clear => cases hi
  | setdelay ms => cases hi
  | append sp ef text => cases hi
  | transmit => cases hi
  | illegal opcode => cases hi

/-- Settles O52: the marker is a byte of its own and one summand of the checksum, and the rest is the buffer's. -/
theorem constantMarkerChangesMarkerAndChecksum : Obligations.ConstantMarkerChangesMarkerAndChecksum := by
  intro cfg B i c hB _ P Q
  have hp := chunkOf_length c hB
  refine ⟨rfl, ?_, fun k h2 h68 => encode_pkt_congr _ _ c _ _ hp h2 h68⟩
  have hsum (x : Byte) : 6 + x = 6 + BitVec.ofNat 8 i + x - BitVec.ofNat 8 i := by ring
  have hP : P[68]? = some (pktChecksum (BitVec.ofNat 8 (6 + i)) c (chunkOf B c)) := encode_pkt_last hp
  have hQ : Q[68]? = some (pktChecksum 6 c (chunkOf B c)) := encode_pkt_last hp
  rw [hP, hQ, Option.map_some, pktChecksum_eq, pktChecksum_eq, BitVec.ofNat_add]
  exact congrArg some (hsum _)

end Sys2Proof.Machine
end

section
/-! One step of the block (00_scope.md R8, 10_state.md R32 to R34): what it is at each position, and what it changes by
what it is: a reset, a command, bytes received, or a step of a run. -/

namespace Sys2Proof.Machine

open Sys2Proof

/-! ### What a step changes -/

/-- A step that answers a next state is a reset; or, in the idle block, a command or bytes received; or a step of a run,
which keeps the list, the delay, the errors and the command port. -/
theorem step_outcomes {s t : State} (h : step s = .next t) :
    (∃ d r, s.rst = .high d :: r ∧ t = resetBlock d s.txData { s with rst := r }) ∨
    (s.ph = .idle ∧ ∃ i rest, decodeCommand (s.rx ++ s.cmd) = .ok i rest ∧ i.space = .command ∧
      exec i { sampled s with rx := [], cmd := rest } = .next t) ∨
    (s.ph = .idle ∧ t = { sampled s with rx := s.rx ++ s.cmd, cmd := [] }) ∨
    (s.ph ≠ .idle ∧ Keeps (sampled s) t) := by
  by_cases hp : s.ph = .idle
  · rcases step_cases h with hreset | ⟨hr, ⟨-, i, rest, hd, hexec⟩ | ⟨-, -, ht⟩ | ⟨hph, -⟩ | ⟨hph, -⟩ | ⟨hph, -⟩ |
      ⟨hph, -⟩⟩
    · exact .inl hreset
    · exact .inr (.inl ⟨hp, i, rest, hd, (decodeCommand_reads hd).space, hexec⟩)
    · exact .inr (.inr (.inl ⟨hp, ht⟩))
    · cases hp.symm.trans hph
    · cases hp.symm.trans hph
    · cases hp.symm.trans hph
    · simp [hp] at hph
  · by_cases hrst : ∃ d r, s.rst = .high d :: r
    · obtain ⟨d, r, hrst⟩ := hrst
      exact .inl ⟨d, r, hrst, Host.Outcome.next.inj (h.symm.trans (step_of_high hrst))⟩
    · exact .inr (.inr (.inr ⟨hp, run_step_keeps hp (fun d r e => hrst ⟨d, r, e⟩) h⟩))

/-- What a command leaves alone: the configuration and the trace; the store, but for APPEND; DLY, but for SETDELAY; and
PH, but for a TRANSMIT that finds and leaves VERR None. -/
structure CommandKeeps (i : Instr) (s t : State) : Prop where
  cfg : t.cfg = s.cfg
  trace : t.trace = s.trace
  mb : t.mb = s.mb ∨ s.verr = .none ∧ ∃ sp ef text, i = .append sp ef text
  dly : t.dly = s.dly ∨ s.verr = .none ∧ i = .setdelay t.dly
  ph : t.ph = s.ph ∨ s.verr = .none ∧ t.verr = .none

theorem exec_command_keeps {i : Instr} {s t : State} (hi : i.space = .command) (h : exec i s = .next t) :
    CommandKeeps i s t := by
  rcases exec_command_cases hi h with rfl | ⟨-, rfl⟩ | ⟨hv, ms, rfl, rfl⟩ | ⟨-, code, rfl⟩ |
    ⟨hv, sp, ef, text, e, happ, -, hstore⟩ | ⟨hv, -, -, rfl⟩
  · exact ⟨rfl, rfl, .inl rfl, .inl rfl, .inl rfl⟩
  · exact ⟨rfl, rfl, .inl rfl, .inl rfl, .inl rfl⟩
  · exact ⟨rfl, rfl, .inl rfl, .inr ⟨hv, rfl⟩, .inl rfl⟩
  · exact ⟨rfl, rfl, .inl rfl, .inl rfl, .inl rfl⟩
  · obtain ⟨m, rfl⟩ := storeMessage_cases hstore
    exact ⟨rfl, rfl, .inr ⟨hv, sp, ef, text, happ⟩, .inl rfl, .inl rfl⟩
  · exact ⟨rfl, rfl, .inl rfl, .inl rfl, .inr ⟨hv, hv⟩⟩

/-! ### What a step adds to the trace (R56, R60) -/

/-- The trace of `t` is that of `s` and at most one delay interval that begins. -/
def AddsAtMostGap (s t : State) : Prop := t.trace = s.trace ∨ t.trace = s.trace ++ [.gap s.dly]

theorem afterInit_adds (s : State) : AddsAtMostGap s (afterInit s) := by
  unfold afterInit
  split
  · exact .inr rfl
  · exact .inl rfl

theorem afterPktByte_adds (k : Nat) (b : Byte) (s : State) : AddsAtMostGap s (afterPktByte k b s) := by
  unfold afterPktByte
  split
  · exact .inr rfl
  · exact .inl rfl

theorem afterTermByte_adds (k : Nat) (s : State) : AddsAtMostGap s (afterTermByte k s) := by
  unfold afterTermByte
  split <;> exact .inl rfl

theorem afterWrite_adds (s : State) (b : Byte) (u : State) : AddsAtMostGap u (afterWrite s b u) := by
  cases hp : s.ph <;> rw [afterWrite, hp]
  case init => exact afterInit_adds u
  case pkt => exact afterPktByte_adds _ _ u
  case term => exact afterTermByte_adds _ u
  all_goals exact .inl rfl

theorem elapse_adds (s : State) : AddsAtMostGap s (elapse s) := by
  unfold elapse
  split
  · exact .inl rfl
  · split
    · exact .inl rfl
    · exact .inr rfl
  · split <;> exact .inl rfl
  all_goals exact .inl rfl

theorem awaitElapse_adds (s : State) : AddsAtMostGap s (awaitElapse s) := by
  rcases awaitElapse_cases s with ⟨-, -, h⟩ | ⟨m, r, -, -, h⟩ | ⟨r, -, h⟩ <;> rw [h]
  · exact .inl rfl
  · exact .inl rfl
  · exact elapse_adds { s with tick := r }

/-- The trace of `t` is that of `s` and at most one byte and one delay interval after it. -/
def AddsAtMostByteAndGap (s t : State) : Prop :=
  ∃ more, t.trace = s.trace ++ more ∧
    (more = [] ∨ (∃ b, more = [.tx b]) ∨ more = [.gap s.dly] ∨ ∃ b, more = [.tx b, .gap s.dly])

theorem AddsAtMostByteAndGap.of_trace_eq {s t : State} (h : t.trace = s.trace) : AddsAtMostByteAndGap s t :=
  ⟨[], h.trans (List.append_nil _).symm, .inl rfl⟩

theorem AddsAtMostGap.addsAtMostByteAndGap {s t : State} (h : AddsAtMostGap s t) : AddsAtMostByteAndGap s t := by
  rcases h with h | h
  · exact .of_trace_eq h
  · exact ⟨_, h, .inr (.inr (.inl rfl))⟩

/-- What the trace is after a byte is delivered and the position moves. -/
theorem AddsAtMostGap.trace_of_deliver {s t : State} {b : Byte} (h : AddsAtMostGap (s.deliver b) t) :
    t.trace = s.trace ++ [.tx b] ∨ t.trace = s.trace ++ [.tx b, .gap s.dly] := by
  rcases h with h | h
  · exact .inl h
  · exact .inr (h.trans (List.append_assoc ..))

/-- A byte write adds its byte, if the sink takes it, and what the move after it adds. -/
theorem sinkWrite_adds {s t : State} {b : Byte} {f : State → State} (hf : ∀ u, AddsAtMostGap u (f u))
    (h : sinkWrite b f s = .next t) : AddsAtMostByteAndGap s t := by
  rcases sinkWrite_cases h with ⟨-, rfl⟩ | ⟨r, -, rfl⟩ | ⟨r, -, rfl⟩
  · exact .of_trace_eq rfl
  · rcases (hf (State.deliver { s with sink := r } b)).trace_of_deliver with h | h
    · exact ⟨_, h, .inr (.inl ⟨b, rfl⟩)⟩
    · exact ⟨_, h, .inr (.inr (.inr ⟨b, rfl⟩))⟩
  · exact .of_trace_eq rfl

theorem exec_frame_adds {i : Instr} {s t : State} (hi : i.space = .wire) (h : exec i s = .next t) :
    AddsAtMostByteAndGap s t := by
  cases i with
  | init => exact sinkWrite_adds afterInit_adds h
  | pkt tm c payload ck =>
    simp only [exec, execPkt] at h
    split at h
    · exact sinkWrite_adds (afterPktByte_adds _ _) h
    · cases h
  | term mask =>
    simp only [exec, execTerm] at h
    split at h
    · exact sinkWrite_adds (afterTermByte_adds _) h
    · cases h
  | nop => cases hi
  | clear => cases hi
  | setdelay ms => cases hi
  | append sp ef text => cases hi
  | transmit => cases hi
  | illegal opcode => cases hi

theorem resetBlock_adds (d : Bool) (o : Option Byte) (s : State) : AddsAtMostByteAndGap s (resetBlock d o s) := by
  refine ⟨inFlight d o, resetBlock_trace .., ?_⟩
  unfold inFlight
  split
  next b => exact .inr (.inl ⟨b, rfl⟩)
  next => exact .inl rfl

/-! ### The end of an interval (R142, R144, R147, R148) -/

/-- An interval ends at once with DLY = 0, and else with a reading of at least DLY. -/
theorem awaitElapse_ended {s : State} {r : List Nat}
    (h : s.dly = 0 ∧ r = s.tick ∨ s.dly ≠ 0 ∧ ∃ m, s.tick = m :: r ∧ s.dly.toNat ≤ m) :
    awaitElapse s = elapse { s with tick := r } := by
  rcases h with ⟨h0, rfl⟩ | ⟨hd, m, ht, hm⟩
  · exact awaitElapse_zero h0
  · exact awaitElapse_reached hd ht hm

theorem elapse_initGap {s : State} (hp : s.ph = .initGap) : elapse s = s.startPacket 0 0 := by rw [elapse, hp]

theorem elapse_pktGap_next {s : State} (hp : s.ph = .pktGap) (h : s.ci.toNat < 3) :
    elapse s = s.startPacket s.mi (s.ci + 1) := by rw [elapse, hp]; exact if_pos h

theorem elapse_pktGap_last {s : State} (hp : s.ph = .pktGap) (h : ¬ s.ci.toNat < 3) :
    elapse s = s.enterGap .msgGap := by rw [elapse, hp]; exact if_neg h

theorem elapse_msgGap_next {s : State} (hp : s.ph = .msgGap) (h : s.mi.toNat + 1 < s.cnt.toNat) :
    elapse s = s.startPacket (s.mi + 1) 0 := by rw [elapse, hp]; exact if_pos h

theorem elapse_msgGap_last {s : State} (hp : s.ph = .msgGap) (h : ¬ s.mi.toNat + 1 < s.cnt.toNat) :
    elapse s = s.enterTerm := by rw [elapse, hp]; exact if_neg h

/-- The packet at the position, where its chunk can be read. -/
theorem currentPkt_of_read {s : State} {payload : List Byte}
    (h : memRead s (slotAddr s.mi.toNat (Config.chunkSize * s.ci.toNat)) Config.chunkSize = .ok payload) :
    currentPkt s = .ok (pktInstr s.cfg s.mi.toNat s.ci payload) := by
  rw [currentPkt, h]

/-! ### The statements -/

/-- Settles O27: the decoder reads exactly the command's bytes. -/
theorem stepExecutesThePresentedCommand : Obligations.StepExecutesThePresentedCommand := by
  intro s i rest hr hp hi hwf hbytes
  exact step_command hr hp (hbytes ▸ decodeCommand_encode hi hwf rest)

/-- Settles O28, by the phase: the frame is INIT, or what the store, or CNT, gives at the position. -/
theorem stepWritesTheFrameAtThePosition : Obligations.StepWritesTheFrameAtThePosition := by
  intro s hr
  refine ⟨step_init hr, fun payload hp hmi hblock => ?_, fun hp h1 hmax => ?_⟩
  · have hci := s.ci.isLt
    have hfit : slotAddr s.mi.toNat (64 * s.ci.toNat) + 64 ≤ s.cfg.storeSize := by
      simp only [slotAddr, Config.storeSize, Config.bufSize]; omega
    exact step_pkt hr hp (currentPkt_of_read (memRead_eq hfit hblock))
  · exact step_term hr hp (if_pos ⟨h1, hmax⟩)

/-- Settles O29, one row of R142's table after the other. -/
theorem elapseMovesTheSequencer : Obligations.ElapseMovesTheSequencer := by
  intro s r hr hend
  have hstep {t : State} (hg : s.ph = .initGap ∨ s.ph = .pktGap ∨ s.ph = .msgGap)
      (ht : elapse { sampled s with tick := r } = t) : step s = .next t := by
    rw [← ht, ← awaitElapse_ended (s := sampled s) hend, step_gap hr hg]
  refine ⟨fun hp => ?_, fun hp hci => ?_, fun hp hci => ?_, fun hp hmi => ?_, fun hp hmi => ?_⟩
  · exact hstep (.inl hp) (elapse_initGap hp)
  · exact hstep (.inr (.inl hp)) (elapse_pktGap_next hp hci)
  · exact hstep (.inr (.inl hp)) (elapse_pktGap_last hp (Nat.not_lt_of_le hci.ge))
  · exact hstep (.inr (.inr hp)) (elapse_msgGap_next hp hmi)
  · exact hstep (.inr (.inr hp)) (elapse_msgGap_last hp (Nat.not_lt_of_le hmi.ge))

/-- Settles O30: no reading, and a reading below DLY. -/
theorem gapNeverEndsEarly : Obligations.GapNeverEndsEarly := by
  intro s hr hg
  refine ⟨fun hd ht => ?_, fun m r ht hm => ?_⟩
  · exact (step_gap hr hg).trans (congrArg _ (awaitElapse_silent hd ht))
  · exact (step_gap hr hg).trans (congrArg _ (awaitElapse_short ht hm))

/-- Settles O31: bytes that are not read as a command are received. -/
theorem incompleteCommandHasNoEffect : Obligations.IncompleteCommandHasNoEffect := by
  intro s hr hp hnone
  cases hd : decodeCommand (s.rx ++ s.cmd) with
  | ok i rest => exact absurd hd (hnone i rest)
  | rejected why => exact step_receive hr hp hd

/-- Settles O32: a step of a run keeps the command port. -/
theorem commandsWaitWhileBusy : Obligations.CommandsWaitWhileBusy := by
  intro s t hp hr h
  have hk := run_step_keeps hp hr h
  exact ⟨Bool.eq_false_iff.2 fun hready => hp (s.cmdReady_iff.1 hready), hk.cmd, hk.rx⟩

/-- Settles O36: the values of a closed state. -/
theorem resetStateHoldsTheResetValues : Obligations.ResetStateHoldsTheResetValues :=
  ⟨rfl, rfl, rfl, rfl, rfl, rfl, rfl, rfl, rfl, rfl, fun _ => rfl⟩

/-- Settles O40: of the things a step can be, only a reset and an accepted APPEND write the store. -/
theorem onlyAppendWritesTheStore : Obligations.OnlyAppendWritesTheStore := by
  intro s t h hne
  rcases step_outcomes h with ⟨d, r, hrst, -⟩ | ⟨hp, i, rest, hd, hi, hexec⟩ | ⟨-, rfl⟩ | ⟨-, hk⟩
  · exact .inl ⟨d, r, hrst⟩
  · obtain ⟨hv, sp, ef, text, rfl⟩ := (exec_command_keeps hi hexec).mb.resolve_left hne
    exact .inr ⟨hp, hv, sp, ef, text, rest, hd⟩
  · exact absurd rfl hne
  · exact absurd hk.mb hne

/-- Settles O41: of the things a step can be, only a reset and an accepted SETDELAY write DLY. -/
theorem onlySetdelayChangesTheDelay : Obligations.OnlySetdelayChangesTheDelay := by
  intro s t h
  rcases step_outcomes h with ⟨d, r, hrst, rfl⟩ | ⟨hp, i, rest, hd, hi, hexec⟩ | ⟨-, rfl⟩ | ⟨-, hk⟩
  · exact ⟨rfl, .inr (.inl ⟨d, r, hrst⟩)⟩
  · have hk := exec_command_keeps hi hexec
    refine ⟨hk.cfg, ?_⟩
    rcases hk.dly with hdly | ⟨hv, rfl⟩
    · exact .inl hdly
    · exact .inr (.inr ⟨hp, hv, rest, hd⟩)
  · exact ⟨rfl, .inl rfl⟩
  · exact ⟨hk.cfg, .inl hk.dly⟩

/-- Settles O42: under a held error a command but CLEAR does nothing. -/
theorem heldErrorStaysUntilClearOrReset : Obligations.HeldErrorStaysUntilClearOrReset := by
  intro s t h hv
  rcases step_outcomes h with ⟨d, r, hrst, -⟩ | ⟨hp, i, rest, hd, hi, hexec⟩ | ⟨-, rfl⟩ | ⟨-, hk⟩
  · exact .inr (.inl ⟨d, r, hrst⟩)
  · by_cases hclear : i = .clear
    · subst hclear
      cases hexec
      exact .inr (.inr ⟨hp, rfl, rest, hd⟩)
    · have ht : t = { sampled s with rx := [], cmd := rest } := exec_next_of_error hi hclear hv hexec
      exact .inl (ht ▸ rfl)
  · exact .inl rfl
  · exact .inl hk.verr

/-- Settles O43, by the step: a reset, a command or received bytes, a Write step, a step in an interval. -/
theorem traceOnlyGrows : Obligations.TraceOnlyGrows := by
  intro s t h
  change AddsAtMostByteAndGap (sampled s) t
  rcases step_cases h with ⟨d, r, -, rfl⟩ | ⟨-, ⟨-, i, rest, hd, hexec⟩ | ⟨-, -, rfl⟩ | ⟨-, hexec⟩ |
    ⟨-, i, hc, hexec⟩ | ⟨-, i, hc, hexec⟩ | ⟨-, rfl⟩⟩
  · exact resetBlock_adds d s.txData { s with rst := r }
  · exact AddsAtMostByteAndGap.of_trace_eq (exec_command_keeps (decodeCommand_reads hd).space hexec).trace
  · exact AddsAtMostByteAndGap.of_trace_eq rfl
  · exact exec_frame_adds (i := .init) rfl hexec
  · exact exec_frame_adds (currentPkt_space hc) hexec
  · exact exec_frame_adds (currentTerm_space hc) hexec
  · exact (awaitElapse_adds (sampled s)).addsAtMostByteAndGap

/-- Settles O44: no command touches the trace, and the one that moves PH finds and leaves VERR None. -/
theorem validationErrorNeverReachesTheSink : Obligations.ValidationErrorNeverReachesTheSink := by
  intro s t hr hp h hv
  rcases step_outcomes h with ⟨d, r, hrst, -⟩ | ⟨-, i, rest, -, hi, hexec⟩ | ⟨-, rfl⟩ | ⟨hrun, -⟩
  · exact absurd hrst (hr d r)
  · have hk := exec_command_keeps hi hexec
    refine ⟨hk.trace, ?_⟩
    rcases hk.ph with hph | ⟨hs, ht⟩
    · exact hph.trans hp
    · rcases hv with hv | hv
      · exact absurd hs hv
      · exact absurd ht hv
  · exact ⟨rfl, hp⟩
  · exact absurd hp hrun

/-- Settles O45: the fields a step of a run keeps. -/
theorem runKeepsItsMessages : Obligations.RunKeepsItsMessages := by
  intro s t hp hr h
  have hk := run_step_keeps hp hr h
  exact ⟨hk.mb, hk.cnt, hk.dly, hk.verr, hk.cfg, hk.res⟩

end Sys2Proof.Machine
end

section
/-! `Seq` and its pieces (42_transmit_sequencer.md R140, R151, R152), and the byte a run presents (10_state.md R31,
R33). -/

namespace Sys2Proof.Machine

open Sys2Proof

/-! ### How many bytes and gaps a piece of Seq has (R151) -/

/-- The event is a byte. -/
def isByte (e : Event) : Bool := match e with | .tx _ => true | .gap _ => false

/-- The event is a delay interval. -/
def isGap (e : Event) : Bool := match e with | .tx _ => false | .gap _ => true

/-- The events are so many bytes and so many delay intervals. -/
structure Counts (l : List Event) (bytes gaps : Nat) : Prop where
  bytes : (l.filter isByte).length = bytes
  gaps : (l.filter isGap).length = gaps

theorem Counts.append {l m : List Event} {bytes gaps bytes' gaps' : Nat} (h : Counts l bytes gaps)
    (k : Counts m bytes' gaps') : Counts (l ++ m) (bytes + bytes') (gaps + gaps') :=
  ⟨by rw [List.filter_append, List.length_append, h.bytes, k.bytes],
    by rw [List.filter_append, List.length_append, h.gaps, k.gaps]⟩

theorem counts_nil : Counts [] 0 0 := ⟨rfl, rfl⟩

theorem counts_gap (d : BitVec 16) : Counts [.gap d] 0 1 := ⟨rfl, rfl⟩

theorem counts_txAll (F : List Byte) : Counts (txAll F) F.length 0 := by
  induction F with
  | nil => exact counts_nil
  | cons b F ih => exact ⟨congrArg (· + 1) ih.bytes, ih.gaps⟩

theorem counts_pktEvents (cfg : Config) (d : BitVec 16) {B : List Byte} (i : Nat) (c : BitVec 2) (hB : B.length = 256) :
    Counts (pktEvents cfg d B i c) 69 1 := by
  have hlen : (pktBytes cfg B i c).length = 69 := encode_pkt_length (chunkOf_length c hB)
  exact (hlen ▸ counts_txAll (pktBytes cfg B i c)).append (counts_gap d)

theorem counts_messageEvents (cfg : Config) (d : BitVec 16) {B : List Byte} (i : Nat) (hB : B.length = 256) :
    Counts (messageEvents cfg d B i) 276 4 := by
  have hpkt (c : BitVec 2) := counts_pktEvents cfg d i c hB
  exact (hpkt 0).append ((hpkt 1).append ((hpkt 2).append ((hpkt 3).append counts_nil)))

theorem counts_messagesEvents (cfg : Config) (d : BitVec 16) (buf : Nat → List Byte) :
    ∀ n, (∀ i < n, (buf i).length = 256) → Counts (messagesEvents cfg d buf n) (276 * n) (5 * n)
  | 0, _ => counts_nil
  | n + 1, h => by
    have hbefore := counts_messagesEvents cfg d buf n fun i hi => h i (Nat.lt_succ_of_lt hi)
    have hmessage := counts_messageEvents cfg d n (h n (Nat.lt_succ_self n))
    rw [messagesEvents_succ]
    exact hbefore.append (hmessage.append (counts_gap d))

theorem counts_initEvents (cfg : Config) (d : BitVec 16) :
    Counts (initEvents cfg d) 1 (if cfg.delayAfterInit then 1 else 0) := by
  unfold initEvents
  split <;> exact ⟨rfl, rfl⟩

/-! ### The pieces of Seq are initial ones (R152) -/

section
variable {s : State}

theorem packetsBefore_prefix (cfg : Config) (d : BitVec 16) (B : List Byte) (i k : Nat) :
    packetsBefore cfg d B i k <+: messageEvents cfg d B i :=
  ⟨_, by rw [packetsBefore, messageEvents, ← List.flatMap_append, List.take_append_drop]⟩

theorem beforeMessage_succ (s : State) (m : Nat) :
    beforeMessage s (m + 1) =
      beforeMessage s m ++ (messageEvents s.cfg s.dly (slotBytes s.mb m) m ++ [.gap s.dly]) := by
  rw [beforeMessage, messagesEvents_succ, ← List.append_assoc]
  rfl

theorem beforeMessage_prefix (s : State) {m n : Nat} (h : m ≤ n) : beforeMessage s m <+: beforeMessage s n := by
  induction h with
  | refl => exact List.prefix_refl _
  | step _ ih => exact ih.trans (beforeMessage_succ s _ ▸ List.prefix_append ..)

/-- Packets of message `m` come before what follows it. -/
theorem packets_prefix {m k n : Nat} (h : m < n) :
    beforeMessage s m ++ packetsBefore s.cfg s.dly (slotBytes s.mb m) m k <+: beforeMessage s n := by
  refine List.IsPrefix.trans ?_ (beforeMessage_prefix s h)
  rw [beforeMessage_succ, List.prefix_append_right_inj]
  exact (packetsBefore_prefix ..).trans (List.prefix_append ..)

/-- The bytes written of a packet come before the end of that packet. -/
theorem packet_bytes_prefix (s : State) :
    packetsBefore s.cfg s.dly (slotBytes s.mb s.mi.toNat) s.mi.toNat s.ci.toNat
        ++ txAll ((positionBytes s).take s.bi.toNat) <+:
      packetsBefore s.cfg s.dly (slotBytes s.mb s.mi.toNat) s.mi.toNat (s.ci.toNat + 1) := by
  rw [packetsBefore_succ, List.prefix_append_right_inj, pktEvents]
  exact ((List.take_prefix ..).map _).trans (List.prefix_append ..)

/-- Before TERM a run has emitted no byte of the terminator. -/
theorem progress_prefix_messages (hi : Inv s) (hp : s.ph ≠ .idle) (hterm : s.ph ≠ .term) :
    progress s <+: beforeMessage s s.cnt.toNat := by
  have hpos := hi.position
  cases hph : s.ph with
  | idle => exact absurd hph hp
  | init => rw [progress_init hph]; exact List.nil_prefix
  | initGap => rw [progress_initGap hph]; exact List.prefix_append ..
  | pkt =>
    obtain ⟨hm, -⟩ := hi.pkt_position hph
    rw [progress_pkt hph, List.append_assoc]
    exact ((List.prefix_append_right_inj _).2 (packet_bytes_prefix s)).trans (packets_prefix hm)
  | pktGap =>
    rw [positionInv, hph] at hpos
    rw [progress_pktGap hph]
    exact packets_prefix hpos
  | msgGap =>
    rw [positionInv, hph] at hpos
    rw [progress_msgGap hph]
    exact beforeMessage_prefix s hpos
  | term => exact absurd hph hterm

/-! ### The byte presented (R31, R33) -/

/-- At the last position of a packet the byte presented is the accumulator. -/
theorem txData_of_pkt_last (hi : Inv s) (hp : s.ph = .pkt) (h68 : s.bi.toNat = 68) : s.txData = some s.csum := by
  obtain ⟨hm, -⟩ := hi.pkt_position hp
  simp only [State.txData, hp, currentPkt_eq hi hm]
  exact if_pos h68

/-- A step outside the writing phases delivers no byte. -/
theorem step_adds_no_byte {t : State} (hv : s.txValid = false) (hr : NoResetNow s) (h : step s = .next t) :
    AddsAtMostGap s t := by
  have hphase : ¬ (s.ph = .init ∨ s.ph = .pkt ∨ s.ph = .term) := by
    rw [← s.txValid_iff, hv]; decide
  rcases step_cases h with ⟨d, r, hrst, -⟩ | ⟨-, ⟨-, i, rest, hd, hexec⟩ | ⟨-, -, rfl⟩ | ⟨hp, -⟩ | ⟨hp, -⟩ |
    ⟨hp, -⟩ | ⟨-, rfl⟩⟩
  · exact absurd hrst (hr d r)
  · exact .inl (exec_command_keeps (decodeCommand_reads hd).space hexec).trace
  · exact .inl rfl
  · exact absurd (.inl hp) hphase
  · exact absurd (.inr (.inl hp)) hphase
  · exact absurd (.inr (.inr hp)) hphase
  · exact awaitElapse_adds (sampled s)

theorem AddsAtMostGap.no_byte {t : State} (h : AddsAtMostGap s t) (b : Byte) : .tx b ∉ t.trace.drop s.trace.length := by
  rcases h with h | h <;> rw [h]
  · simp
  · simp

/-- The sink takes the byte presented: it joins the trace, and at most a delay interval after it. -/
theorem step_delivers {b : Byte} {r : List SinkAnswer} (hi : Inv s) (hr : NoResetNow s) (hb : s.txData = some b)
    (hs : s.sink = .ok :: r) :
    ∃ t, step s = .next t ∧ t.sink = r ∧
      (t.trace = s.trace ++ [.tx b] ∨ t.trace = s.trace ++ [.tx b, .gap s.dly]) := by
  have hi' : Inv { sampled s with sink := r } := hi.inputs r s.tick _
  have hmoves := afterWrite_moves hi' hb
  exact ⟨_, (step_presented hi hr hb).trans (sinkWrite_ok b _ hs), hmoves.sink,
    (afterWrite_adds s b _).trace_of_deliver⟩

end

/-! ### The statements -/

/-- Settles O48: before TERM the whole terminator is yet to come, and in TERM its bytes from BI on. -/
theorem emittedIsProperInitialPieceOfSeq : Obligations.EmittedIsProperInitialPieceOfSeq := by
  intro s hi hp
  have hemitted : emitted s = progress s := (if_neg hp).symm
  have hseq : fullSeq s = beforeMessage s s.cnt.toNat ++ txAll (termBytes s.cnt.toNat) := rfl
  rw [hemitted, hseq]
  by_cases hterm : s.ph = .term
  · have hbi := hi.term_position hterm
    refine ⟨txAll ((termBytes s.cnt.toNat).drop s.bi.toNat), ?_, ?_⟩
    · refine List.ne_nil_of_length_pos ?_
      simp [txAll, termBytes, termInstr, encode]
      omega
    · rw [progress_term hterm, List.append_assoc, txAll, txAll, txAll, ← List.map_append, List.take_append_drop]
  · obtain ⟨more, hmore⟩ := progress_prefix_messages hi hp hterm
    refine ⟨more ++ txAll (termBytes s.cnt.toNat), ?_, by rw [← hmore, List.append_assoc]⟩
    exact List.append_ne_nil_of_right_ne_nil _ (List.cons_ne_nil _ _)

/-- Settles O51: the init byte, 276 bytes and 5 gaps for each message, and the terminator. -/
theorem seqHasTheCountedBytesAndGaps : Obligations.SeqHasTheCountedBytesAndGaps := by
  intro cfg d buf n hbuf q
  have hq : Counts q (1 + 276 * n + 3) ((if cfg.delayAfterInit then 1 else 0) + 5 * n + 0) :=
    ((counts_initEvents cfg d).append (counts_messagesEvents cfg d buf n hbuf)).append (counts_txAll (termBytes n))
  refine ⟨hq.bytes.trans (by omega), hq.gaps.trans ?_⟩
  split <;> omega

/-- Settles O53: the byte by phase, that no other phase has one, and that the write is of that byte. -/
theorem presentedByteIsTheOneWritten : Obligations.PresentedByteIsTheOneWritten := by
  intro s hi
  refine ⟨s.txValid_iff, fun hv => ⟨txData_eq_none hv, fun t hr ht b => (step_adds_no_byte hv hr ht).no_byte b⟩,
    txData_of_init, fun hp => ?_, fun hp => ?_, fun b r hb hr hs => step_delivers hi hr hb hs⟩
  · obtain ⟨b, hb⟩ := exists_txData hi (s.txValid_iff.2 (.inr (.inl hp)))
    refine ⟨b, hb, (txData_of_pkt hi hp).symm.trans hb, fun h68 => ?_⟩
    exact Option.some.inj (hb.symm.trans (txData_of_pkt_last hi hp h68))
  · obtain ⟨b, hb⟩ := exists_txData hi (s.txValid_iff.2 (.inr (.inr hp)))
    exact ⟨b, hb, (txData_of_term hi hp).symm.trans hb⟩

end Sys2Proof.Machine
end

section
/-! The store beyond the message list (10_state.md R21, 42_transmit_sequencer.md R145): no step reads a slot at or above
CNT, so a block whose store differs only there steps alike. -/

namespace Sys2Proof.Machine

open Sys2Proof

/-! ### The block with another store -/

/-- The block `s` with the store `m`. -/
def State.withStore (m : Memory) (s : State) : State := { s with mb := m }

/-- The two stores hold the same bytes in the slots below `n`. -/
def AgreeBelow (n : Nat) (m m' : Memory) : Prop := ∀ a < 256 * n, Memory.read m a = Memory.read m' a

theorem AgreeBelow.mono {n k : Nat} {m m' : Memory} (h : AgreeBelow n m m') (hk : k ≤ n) : AgreeBelow k m m' :=
  fun a ha => h a (by omega)

/-- A buffer written to slot `n` of both stores makes them agree on that slot too. -/
theorem AgreeBelow.writeBlock {n : Nat} {m m' : Memory} {B : List Byte} (h : AgreeBelow n m m') (hB : B.length = 256) :
    AgreeBelow (n + 1) (m.writeBlock (256 * n) B) (m'.writeBlock (256 * n) B) := by
  intro a ha
  rw [Memory.read_writeBlock, Memory.read_writeBlock]
  split
  · rfl
  · exact h a (by omega)

/-- A block read below slot `n` gives the same in both stores. -/
theorem AgreeBelow.readBlock {n : Nat} {m m' : Memory} (h : AgreeBelow n m m') {k : Nat} :
    ∀ {a}, a + k ≤ 256 * n → m.readBlock a k = m'.readBlock a k := by
  induction k with
  | zero => exact fun _ => rfl
  | succ k ih =>
    intro a ha
    rw [Memory.readBlock, Memory.readBlock, h a (by omega), ih (by omega)]

/-! ### What does not read the store -/

/-- The move does not depend on the store and leaves it alone. -/
def IgnoresStore (f : State → State) : Prop := ∀ m s, f (s.withStore m) = (f s).withStore m

theorem afterInit_ignoresStore : IgnoresStore afterInit := by
  intro m s
  rw [afterInit, afterInit, apply_ite (State.withStore m)]
  rfl

theorem afterPktByte_ignoresStore (k : Nat) (b : Byte) : IgnoresStore (afterPktByte k b) := by
  intro m s
  unfold afterPktByte
  split <;> rfl

theorem afterTermByte_ignoresStore (k : Nat) : IgnoresStore (afterTermByte k) := by
  intro m s
  unfold afterTermByte
  split <;> rfl

theorem elapse_ignoresStore : IgnoresStore elapse := by
  intro m s
  cases hp : s.ph with
  | pktGap =>
    by_cases h : s.ci.toNat < 3
    · rw [elapse_pktGap_next hp h]; exact elapse_pktGap_next (s := s.withStore m) hp h
    · rw [elapse_pktGap_last hp h]; exact elapse_pktGap_last (s := s.withStore m) hp h
  | msgGap =>
    by_cases h : s.mi.toNat + 1 < s.cnt.toNat
    · rw [elapse_msgGap_next hp h]; exact elapse_msgGap_next (s := s.withStore m) hp h
    · rw [elapse_msgGap_last hp h]; exact elapse_msgGap_last (s := s.withStore m) hp h
  | initGap => rw [elapse_initGap hp]; exact elapse_initGap (s := s.withStore m) hp
  | idle | init | pkt | term => simp only [elapse, State.withStore, hp]

theorem awaitElapse_ignoresStore : IgnoresStore awaitElapse := by
  intro m s
  rcases awaitElapse_cases s with ⟨hd, ht, h⟩ | ⟨x, r, ht, hx, h⟩ | ⟨r, hr, h⟩ <;> rw [h]
  · exact awaitElapse_silent (s := s.withStore m) hd ht
  · exact awaitElapse_short (s := s.withStore m) ht hx
  · exact (awaitElapse_ended (s := s.withStore m) hr).trans (elapse_ignoresStore m { s with tick := r })

theorem sinkWrite_withStore {b : Byte} {f : State → State} (hf : IgnoresStore f) (m : Memory) {s t : State}
    (h : sinkWrite b f s = .next t) : sinkWrite b f (s.withStore m) = .next (t.withStore m) := by
  rcases sinkWrite_cases h with ⟨hs, rfl⟩ | ⟨r, hs, rfl⟩ | ⟨r, hs, rfl⟩
  · exact sinkWrite_wait b f hs
  · rw [← hf]; exact sinkWrite_ok b f (s := s.withStore m) hs
  · exact sinkWrite_fail b f (s := s.withStore m) hs

/-- A Write step's frame is its operand: the store is read where the frame is built. -/
theorem exec_frame_withStore {i : Instr} {s t : State} (m : Memory) (hi : i.space = .wire) (h : exec i s = .next t) :
    exec i (s.withStore m) = .next (t.withStore m) := by
  cases i with
  | init => exact sinkWrite_withStore afterInit_ignoresStore m h
  | pkt tm c payload ck =>
    simp only [exec, execPkt] at h
    split at h
    next b hb =>
      exact (exec_pkt_eq (s := s.withStore m) hb).trans (sinkWrite_withStore (afterPktByte_ignoresStore _ b) m h)
    next => cases h
  | term mask =>
    simp only [exec, execTerm] at h
    split at h
    next b hb =>
      exact (exec_term_eq (s := s.withStore m) hb).trans (sinkWrite_withStore (afterTermByte_ignoresStore _) m h)
    next => cases h
  | nop => cases hi
  | clear => cases hi
  | setdelay ms => cases hi
  | append sp ef text => cases hi
  | transmit => cases hi
  | illegal opcode => cases hi

/-! ### What reads the message list alone -/

/-- The outcomes of two blocks with stores that agree below CNT: they agree on every field but the store, and on the
store below the new CNT. -/
def SameBut (t t' : State) : Prop := t = t'.withStore t.mb ∧ AgreeBelow t.cnt.toNat t'.mb t.mb

theorem SameBut.withStore {t : State} {m : Memory} (h : AgreeBelow t.cnt.toNat m t.mb) : SameBut t (t.withStore m) :=
  ⟨rfl, h⟩

section
variable {s t : State} {m : Memory}

/-- A packet is built from its own message's slot. -/
theorem currentPkt_withStore (hi : Inv s) (hp : s.ph = .pkt) (h : AgreeBelow s.cnt.toNat m s.mb) :
    currentPkt (s.withStore m) = currentPkt s := by
  obtain ⟨hm, -⟩ := hi.pkt_position hp
  have hci := s.ci.isLt
  have hinside : slotAddr s.mi.toNat (64 * s.ci.toNat) + 64 ≤ 256 * s.cnt.toNat := by
    simp only [slotAddr, Config.bufSize]; omega
  have hblock := h.readBlock hinside
  have hread : memRead (s.withStore m) (slotAddr s.mi.toNat (64 * s.ci.toNat)) 64 =
      memRead s (slotAddr s.mi.toNat (64 * s.ci.toNat)) 64 := by
    rw [memRead, memRead, ← hblock]; rfl
  rw [currentPkt, currentPkt]
  exact hread ▸ rfl

theorem txData_withStore (hi : Inv s) (h : AgreeBelow s.cnt.toNat m s.mb) : (s.withStore m).txData = s.txData := by
  have hph : (s.withStore m).ph = s.ph := rfl
  cases hp : s.ph with
  | pkt =>
    rw [State.txData, State.txData, hph, hp, currentPkt_withStore hi hp h]
    rfl
  | term =>
    rw [State.txData, State.txData, hph, hp]
    rfl
  | idle | init | initGap | pktGap | msgGap => rw [State.txData, State.txData, hph, hp]

/-- A command reads no store; APPEND writes the same slot of both. -/
theorem exec_command_withStore {i : Instr} (hspace : i.space = .command) (hi : Inv s)
    (h : AgreeBelow s.cnt.toNat m s.mb) (hexec : exec i s = .next t) :
    ∃ t', exec i (s.withStore m) = .next t' ∧ SameBut t t' := by
  by_cases hclear : i = .clear
  · subst hclear
    cases hexec
    exact ⟨_, rfl, .withStore (h.mono (Nat.zero_le _))⟩
  by_cases hv : s.verr = .none
  swap
  · obtain rfl := exec_next_of_error hspace hclear hv hexec
    exact ⟨_, errorStateRefusesEveryCommandButClear i (t.withStore m) hspace hclear hv, .withStore h⟩
  cases i with
  | append sp ef text =>
    cases hcheck : checkAppend s.cfg s.cnt sp ef text with
    | error code =>
      rw [exec_append_of_error hv hcheck] at hexec
      cases hexec
      exact ⟨_, exec_append_of_error (s := s.withStore m) hv hcheck, .withStore h⟩
    | passed e =>
      obtain ⟨ht, hne, -⟩ := checkAppend_passed hcheck
      have hroom : s.cnt.toNat < s.cfg.maxMessages := Nat.lt_of_le_of_ne hi.cnt_le hne
      have hB : (build text sp (effectTag e) (s.cnt.toNat + 1)).length = 256 := build_length _ _ _ _ (by omega)
      rw [exec_append_of_passed hv hcheck, storeMessage_eq hB hroom] at hexec
      cases hexec
      refine ⟨_, (exec_append_of_passed (s := s.withStore m) hv hcheck).trans (storeMessage_eq hB hroom), rfl, ?_⟩
      rw [cnt_succ_toNat hroom]
      exact h.writeBlock hB
  | transmit =>
    by_cases hc : s.cnt = 0
    · rw [exec_transmit_of_empty hv hc] at hexec
      cases hexec
      exact ⟨_, exec_transmit_of_empty (s := s.withStore m) hv hc, .withStore h⟩
    · rw [exec_transmit_starts hv hc] at hexec
      cases hexec
      exact ⟨_, exec_transmit_starts (s := s.withStore m) hv hc, .withStore h⟩
  | setdelay ms =>
    rw [exec_setdelay ms hv] at hexec
    cases hexec
    exact ⟨_, exec_setdelay (s := s.withStore m) ms hv, .withStore h⟩
  | illegal opcode =>
    rw [exec_illegal opcode hv] at hexec
    cases hexec
    exact ⟨_, exec_illegal (s := s.withStore m) opcode hv, .withStore h⟩
  | nop =>
    cases hexec
    exact ⟨_, rfl, .withStore h⟩
  | clear => exact absurd rfl hclear
  | init => cases hspace
  | pkt tm c payload ck => cases hspace
  | term mask => cases hspace

/-- A step of a run reads the store where it builds its packet, and writes none. -/
theorem run_step_withStore (hi : Inv s) (hp : s.ph ≠ .idle) (hr : NoResetNow s) (h : AgreeBelow s.cnt.toNat m s.mb)
    (hstep : step s = .next t) : step (s.withStore m) = .next (t.withStore m) := by
  rcases step_cases hstep with ⟨d, r, hrst, -⟩ | ⟨-, ⟨hidle, -⟩ | ⟨hidle, -⟩ | ⟨hph, hexec⟩ | ⟨hph, i, hc, hexec⟩ |
    ⟨hph, i, hc, hexec⟩ | ⟨hph, rfl⟩⟩
  · exact absurd hrst (hr d r)
  · exact absurd hidle hp
  · exact absurd hidle hp
  · exact (step_init (s := s.withStore m) hr hph).trans (exec_frame_withStore (i := .init) m rfl hexec)
  · have hc' : currentPkt ((sampled s).withStore m) = .ok i := (currentPkt_withStore hi.sampled hph h).trans hc
    exact (step_pkt (s := s.withStore m) hr hph hc').trans (exec_frame_withStore m (currentPkt_space hc) hexec)
  · exact (step_term (s := s.withStore m) hr hph hc).trans (exec_frame_withStore m (currentTerm_space hc) hexec)
  · exact (step_gap (s := s.withStore m) hr hph).trans
      (congrArg Host.Outcome.next (awaitElapse_ignoresStore m (sampled s)))

theorem step_withStore (hi : Inv s) (h : AgreeBelow s.cnt.toNat m s.mb) (hstep : step s = .next t) :
    ∃ t', step (s.withStore m) = .next t' ∧ SameBut t t' := by
  by_cases hrst : ∃ d r, s.rst = .high d :: r
  · obtain ⟨d, r, hrst⟩ := hrst
    rw [step_of_high hrst] at hstep
    cases hstep
    refine ⟨_, step_of_high (s := s.withStore m) hrst, ?_, nofun⟩
    rw [txData_withStore hi h]
    rfl
  have hr : NoResetNow s := fun d r e => hrst ⟨d, r, e⟩
  by_cases hp : s.ph = .idle
  · cases hd : decodeCommand (s.rx ++ s.cmd) with
    | ok i rest =>
      rw [step_command hr hp hd] at hstep
      have htaken : Inv { sampled s with rx := [], cmd := rest } := hi.of_idle rfl rfl rfl hp rfl
      obtain ⟨t', ht', hsame⟩ := exec_command_withStore (decodeCommand_reads hd).space htaken h hstep
      exact ⟨t', (step_command (s := s.withStore m) hr hp hd).trans ht', hsame⟩
    | rejected why =>
      rw [step_receive hr hp hd] at hstep
      cases hstep
      exact ⟨_, step_receive (s := s.withStore m) hr hp hd, .withStore h⟩
  · have hk := run_step_keeps hp hr hstep
    refine ⟨_, run_step_withStore hi hp hr h hstep, .withStore ?_⟩
    rw [hk.cnt, hk.mb]
    exact h

end

/-! ### The statement -/

/-- Settles O46: the step with another store is the same step with another store. -/
theorem slotsBeyondCountAreNeverRead : Obligations.SlotsBeyondCountAreNeverRead :=
  fun _ _ _ hi h hstep => step_withStore hi h hstep

end Sys2Proof.Machine
end
